-- ==== Sys2Proof/Word.lean ====
section
/-! DEFINITION. The machine's words: a byte (cell, register, operand, address) and the 9-bit program counter
(spec/00_scope.md R4, R5). -/

namespace Sys2Proof

/-- A memory cell, a register, an operand byte or an 8-bit address: an unsigned integer in 0..255 (R5, R11). -/
abbrev Byte := BitVec 8

/-- The program counter's word: 9 bits (R16, the spec's decision D2). -/
abbrev PcWord := BitVec 9

end Sys2Proof
end

