-- ==== Sys2Proof/Config.lean ====
section
/-! DEFINITION. What this hardware fixes (the parameters of spec/00_scope.md R4) and the free values: constants
without a body, of which nothing in Lean can prove a value. The parameter OPCODE_MAP is `Sys2Proof.opcodeMap` in
Decode.lean. -/

namespace Sys2Proof.Config

/-- MEMSIZE: the number of memory cells, addresses 0 to 255 (R4, R11). -/
def memSize : Nat := 256

/-- NREG: the number of registers, at addresses 0 to 7 (R4, R12). -/
def numRegs : Nat := 8

/-- SP_REG: the register that is the stack pointer (R4, R13). -/
def spReg : Byte := 7

/-- SP_TOP: the reset value of the stack pointer, and the top of the stack's initial region (R4, R92). -/
def spTop : Byte := 0xF4

/-- PC_RESET (R4, R16). -/
def pcReset : PcWord := 0

/-- LOAD_BASE: the address at which a program image is placed (R4, R40). -/
def loadBase : Nat := 0

/-- FL_RESET: the flags at reset (R26). UNVERIFIED: the source is silent, the value is the spec's decision D7;
log 3, unsafe. -/
def flReset : BitVec 3 := 0

/-- The n-th free byte: the value of a latch after a fault (R141) or of a cell after an oversized load (R41),
which the spec calls unspecified. Log 4 and 5, safe. -/
opaque freeByte : Nat → Byte

/-- CHARSET for the code points 128..255, which the spec leaves to the host (R112, D19). Log 10, safe. -/
opaque charset : Byte → Char

/-- The line separator of rendered output, which the spec leaves to the host (R112, D19). Log 10, safe. -/
opaque lineSeparator : List Char

end Sys2Proof.Config
end

