-- ==== Sys2Proof/Syntax.lean ====
section
/-! DEFINITION. The instructions as syntax: one constructor per row of spec/opcode_table.json (30_encoding.md R54, R56,
R57). Operand bytes are whole bytes: any of 0..255 is a register operand (R54, R60). -/

namespace Sys2Proof

/-- The names of the rows of the opcode table (R56), the two reserved slots INT and IRET (R57) among them. -/
inductive Mnemonic where
  | nop | hlt | ret | push | pop | prn | pra | call | jmp | jeq | jne | jgt | jlt | jle | jge | inc | dec
  | not | ldi | ld | st | add | sub | mul | div | mod | cmp | and | or | xor | shl | shr | int | iret
  deriving DecidableEq, Repr

/-- Every mnemonic, in the table's order. -/
def Mnemonic.all : List Mnemonic :=
  [.nop, .hlt, .ret, .push, .pop, .prn, .pra, .call, .jmp, .jeq, .jne, .jgt, .jlt, .jle, .jge, .inc, .dec] ++
  [.not, .ldi, .ld, .st, .add, .sub, .mul, .div, .mod, .cmp, .and, .or, .xor, .shl, .shr, .int, .iret]

/-- An instruction with its operand bytes: `ra` is operand a, `rb` operand b, `imm` an immediate operand b (R54). -/
inductive Instr where
  /-- NOP: no operation (R81). -/
  | nop
  /-- HLT: halt (R80). -/
  | hlt
  /-- RET: return from a subroutine (R97). -/
  | ret
  /-- PUSH: push a register (R90). -/
  | push (ra : Byte)
  /-- POP: pop into a register (R91). -/
  | pop (ra : Byte)
  /-- PRN: print number (R110). -/
  | prn (ra : Byte)
  /-- PRA: print character (R111). -/
  | pra (ra : Byte)
  /-- CALL: call a subroutine (R96). -/
  | call (ra : Byte)
  /-- JMP: jump (R95). -/
  | jmp (ra : Byte)
  /-- JEQ: jump if equal (R101). -/
  | jeq (ra : Byte)
  /-- JNE: jump if not equal (R102). -/
  | jne (ra : Byte)
  /-- JGT: jump if greater (R103). -/
  | jgt (ra : Byte)
  /-- JLT: jump if less (R105). -/
  | jlt (ra : Byte)
  /-- JLE: jump if less or equal (R106). -/
  | jle (ra : Byte)
  /-- JGE: jump if greater or equal (R104). -/
  | jge (ra : Byte)
  /-- INC: increment (R132). -/
  | inc (ra : Byte)
  /-- DEC: decrement (R133). -/
  | dec (ra : Byte)
  /-- NOT: bitwise complement (R127). -/
  | not (ra : Byte)
  /-- LDI: load immediate (R85). -/
  | ldi (ra imm : Byte)
  /-- LD: load indirect through the cell `rb` (R86). -/
  | ld (ra rb : Byte)
  /-- ST: store indirect through the cell `ra` (R87). -/
  | st (ra rb : Byte)
  /-- ADD: add (R116). -/
  | add (ra rb : Byte)
  /-- SUB: subtract (R117). -/
  | sub (ra rb : Byte)
  /-- MUL: multiply (R118). -/
  | mul (ra rb : Byte)
  /-- DIV: divide (R119). -/
  | div (ra rb : Byte)
  /-- MOD: remainder (R120). -/
  | mod (ra rb : Byte)
  /-- CMP: compare (R131). -/
  | cmp (ra rb : Byte)
  /-- AND: bitwise and (R124). -/
  | and (ra rb : Byte)
  /-- OR: bitwise or (R125). -/
  | or (ra rb : Byte)
  /-- XOR: bitwise exclusive or (R126). -/
  | xor (ra rb : Byte)
  /-- SHL: shift left by the value itself, `rb` ignored (R128). -/
  | shl (ra rb : Byte)
  /-- SHR: shift right by the value itself, `rb` ignored (R129). -/
  | shr (ra rb : Byte)
  /-- INT: the reserved slot INT; its byte's operand count is 1, and the operand is never used (R57, R82). -/
  | int (ra : Byte)
  /-- IRET: the reserved slot IRET (R57, R82). -/
  | iret
  deriving DecidableEq, Repr

/-- An opcode map: the opcode byte of each mnemonic, the parameter OPCODE_MAP of R4. The map of this hardware is
`Sys2Proof.opcodeMap` (Decode.lean); decoding and encoding are functions of the map, as R56 asks. -/
abbrev OpcodeMap := Mnemonic → Byte

end Sys2Proof
end

