-- ==== Sys2Proof/WellFormed.lean ====
section
/-! DEFINITION. What is well formed: an instruction (not a reserved slot), an opcode map (the constraints of
30_encoding.md R55 and decision D12), and a program image (20_memory.md R40). Operand bytes need no check: every byte is
legal (R60). -/

namespace Sys2Proof

/-- A reserved slot of the instruction table: present but unimplemented, not an instruction (R57, R82). -/
def Mnemonic.reserved : Mnemonic → Bool
  | .int => true
  | .iret => true
  | _ => false

/-- An instruction is well formed when it is one of the 32 of R56, not a reserved slot (R57, R58). -/
def Instr.wellFormed : Instr → Bool
  | .int _ => false
  | .iret => false
  | _ => true

/-- Bits 7..4 of each opcode, as the source fixes them (R55); of the two reserved slots, as R57 lists them. -/
def Mnemonic.highNibble : Mnemonic → BitVec 4
  | .nop | .hlt => 0b0000
  | .ret | .iret => 0b0001
  | .push | .pop | .prn | .pra => 0b0100
  | .call | .jmp | .jeq | .jne | .jgt | .jlt | .jle | .jge | .int => 0b0101
  | .inc | .dec | .not => 0b0110
  | .ldi | .ld | .st => 0b1000
  | .add | .sub | .mul | .div | .mod | .cmp | .and | .or | .xor | .shl | .shr => 0b1010

/-- Bits 7..4 of every opcode of the map are those of R55. -/
def OpcodeMap.highNibblesMatch (map : OpcodeMap) : Bool :=
  Mnemonic.all.all fun m => (map m).extractLsb' 4 4 == m.highNibble

/-- The five whole opcode bytes the source gives (R55). -/
def OpcodeMap.sourceBytesMatch (map : OpcodeMap) : Bool :=
  map .ldi == 0b10000010 && map .add == 0b10100000 && map .prn == 0b01000111 && map .hlt == 0b00000001 &&
    map .nop == 0

/-- No two mnemonics share an opcode byte (R55, D12). -/
def OpcodeMap.distinct (map : OpcodeMap) : Bool :=
  Mnemonic.all.all fun m => Mnemonic.all.all fun n => m == n || map m != map n

/-- The constraints on an opcode map (R55, D12). -/
def OpcodeMap.wellFormed (map : OpcodeMap) : Bool :=
  map.highNibblesMatch && map.sourceBytesMatch && map.distinct

/-- The core requires of an image only that it is no longer than the memory size (R40). -/
def imageWellFormed (img : List Byte) : Bool :=
  decide (img.length ≤ Config.memSize)

end Sys2Proof
end

