-- ==== Sys2Proof/Decode.lean ====
section
/-! DEFINITION. The opcode map of this hardware, the fields of the opcode byte, the decoder and the encoder
(spec/30_encoding.md, 40_cycle.md R67, R68). -/

namespace Sys2Proof

/-- OPCODE_MAP: the complete opcode map (R56, and R57 for INT and IRET). Bits 7..4 and the bytes of NOP, HLT, PRN, LDI and
ADD are the source's; the other low nibbles are PRESUMED (general knowledge, 93_implementation_defined.md G1): log 7,
unsafe. -/
def opcodeMap : OpcodeMap
  | .nop => 0x00
  | .hlt => 0x01
  | .ret => 0x11
  | .push => 0x45
  | .pop => 0x46
  | .prn => 0x47
  | .pra => 0x48
  | .call => 0x50
  | .jmp => 0x54
  | .jeq => 0x55
  | .jne => 0x56
  | .jgt => 0x57
  | .jlt => 0x58
  | .jle => 0x59
  | .jge => 0x5A
  | .inc => 0x65
  | .dec => 0x66
  | .not => 0x69
  | .ldi => 0x82
  | .ld => 0x83
  | .st => 0x84
  | .add => 0xA0
  | .sub => 0xA1
  | .mul => 0xA2
  | .div => 0xA3
  | .mod => 0xA4
  | .cmp => 0xA7
  | .and => 0xA8
  | .or => 0xAA
  | .xor => 0xAB
  | .shl => 0xAC
  | .shr => 0xAD
  | .int => 0x52
  | .iret => 0x13

/-- The field `N`: the operand count, bits 7..6 of the opcode byte (R51, R67). -/
def operandCount (ir : Byte) : Nat := (ir >>> 6).toNat

/-- The field `L`: bit 5, the informational ALU marker; no effect on execution (R51, R53). -/
def aluMarker (ir : Byte) : Bool := ir.getLsbD 5

/-- The field `P`: bit 4, set when the handler sets the pc (R51, R67). -/
def setsPc (ir : Byte) : Bool := ir.getLsbD 4

/-- The field `I`: bits 3..0, the identifier (R51). -/
def identifier (ir : Byte) : BitVec 4 := ir.extractLsb' 0 4

/-- The mnemonic of an instruction. -/
def Instr.mnemonic : Instr → Mnemonic
  | .nop => .nop
  | .hlt => .hlt
  | .ret => .ret
  | .push _ => .push
  | .pop _ => .pop
  | .prn _ => .prn
  | .pra _ => .pra
  | .call _ => .call
  | .jmp _ => .jmp
  | .jeq _ => .jeq
  | .jne _ => .jne
  | .jgt _ => .jgt
  | .jlt _ => .jlt
  | .jle _ => .jle
  | .jge _ => .jge
  | .inc _ => .inc
  | .dec _ => .dec
  | .not _ => .not
  | .ldi _ _ => .ldi
  | .ld _ _ => .ld
  | .st _ _ => .st
  | .add _ _ => .add
  | .sub _ _ => .sub
  | .mul _ _ => .mul
  | .div _ _ => .div
  | .mod _ _ => .mod
  | .cmp _ _ => .cmp
  | .and _ _ => .and
  | .or _ _ => .or
  | .xor _ _ => .xor
  | .shl _ _ => .shl
  | .shr _ _ => .shr
  | .int _ => .int
  | .iret => .iret

/-- The operand bytes of an instruction, operand a first (R50, R54). -/
def Instr.operands : Instr → List Byte
  | .nop => []
  | .hlt => []
  | .ret => []
  | .iret => []
  | .push a => [a]
  | .pop a => [a]
  | .prn a => [a]
  | .pra a => [a]
  | .call a => [a]
  | .jmp a => [a]
  | .jeq a => [a]
  | .jne a => [a]
  | .jgt a => [a]
  | .jlt a => [a]
  | .jle a => [a]
  | .jge a => [a]
  | .inc a => [a]
  | .dec a => [a]
  | .not a => [a]
  | .int a => [a]
  | .ldi a b => [a, b]
  | .ld a b => [a, b]
  | .st a b => [a, b]
  | .add a b => [a, b]
  | .sub a b => [a, b]
  | .mul a b => [a, b]
  | .div a b => [a, b]
  | .mod a b => [a, b]
  | .cmp a b => [a, b]
  | .and a b => [a, b]
  | .or a b => [a, b]
  | .xor a b => [a, b]
  | .shl a b => [a, b]
  | .shr a b => [a, b]

/-- The instruction of a mnemonic with the candidate operand bytes a and b; the unused ones are ignored (R66, R68). -/
def Mnemonic.withOperands (a b : Byte) : Mnemonic → Instr
  | .nop => .nop
  | .hlt => .hlt
  | .ret => .ret
  | .push => .push a
  | .pop => .pop a
  | .prn => .prn a
  | .pra => .pra a
  | .call => .call a
  | .jmp => .jmp a
  | .jeq => .jeq a
  | .jne => .jne a
  | .jgt => .jgt a
  | .jlt => .jlt a
  | .jle => .jle a
  | .jge => .jge a
  | .inc => .inc a
  | .dec => .dec a
  | .not => .not a
  | .ldi => .ldi a b
  | .ld => .ld a b
  | .st => .st a b
  | .add => .add a b
  | .sub => .sub a b
  | .mul => .mul a b
  | .div => .div a b
  | .mod => .mod a b
  | .cmp => .cmp a b
  | .and => .and a b
  | .or => .or a b
  | .xor => .xor a b
  | .shl => .shl a b
  | .shr => .shr a b
  | .int => .int a
  | .iret => .iret

/-- Why a byte list holds no instruction. -/
inductive DecodeError where
  /-- There is no opcode byte. -/
  | noBytes
  /-- Fewer operand bytes follow than bits 7..6 of the opcode byte count (R52). -/
  | truncated (ir : Byte)
  /-- The opcode byte is in no row of the table (R58). -/
  | invalidOpcode (ir : Byte)
  deriving DecidableEq, Repr

/-- Look the whole byte up in the instruction table (R53, R68). -/
def lookup (map : OpcodeMap) (ir : Byte) : Option Mnemonic :=
  Mnemonic.all.find? fun m => map m == ir

/-- Dispatch on a latched opcode byte and the two latched candidate operands (R66, R68). -/
def decodeLatched (map : OpcodeMap) (ir a b : Byte) : Except DecodeError Instr :=
  match lookup map ir with
  | some m => .ok (m.withOperands a b)
  | none => .error (.invalidOpcode ir)

/-- Decode the instruction at the head of a byte list under an opcode map, with the bytes that are left. The length is
`N + 1`, read from bits 7..6 of the first byte (R52). -/
def decodeWith (map : OpcodeMap) : List Byte → Except DecodeError (Instr × List Byte)
  | [] => .error .noBytes
  | ir :: rest =>
    match lookup map ir with
    | none => .error (.invalidOpcode ir)
    | some m =>
      if rest.length < operandCount ir then .error (.truncated ir)
      else .ok (m.withOperands (rest.getD 0 0) (rest.getD 1 0), rest.drop (operandCount ir))

/-- The decoder of this hardware. -/
def decode (bytes : List Byte) : Except DecodeError (Instr × List Byte) := decodeWith opcodeMap bytes

/-- The bytes of an instruction under an opcode map, in ascending address order (R33, R50). -/
def encodeWith (map : OpcodeMap) (i : Instr) : List Byte := map i.mnemonic :: i.operands

/-- The encoder of this hardware. -/
def encode (i : Instr) : List Byte := encodeWith opcodeMap i

/-- An instruction's bits, numbered as the opcode table numbers them, laid out as three bytes, the opcode at the lowest
address; the bits above `nbits` are zero (R33). -/
def bytesOfWord (nbits w : Nat) : List Byte :=
  let v := w % 2 ^ nbits
  [BitVec.ofNat 8 v, BitVec.ofNat 8 (v / 256), BitVec.ofNat 8 (v / 65536)]

/-- The instruction the decoder reads from an instruction whose bits are `w`. -/
def decodeTableWord (nbits w : Nat) : Option Instr :=
  match decode (bytesOfWord nbits w) with
  | .ok (i, _) => some i
  | .error _ => none

end Sys2Proof
end

