-- ==== Sys2Proof/Machine/State.lean ====
section
/-! DEFINITION. The whole state of the machine (spec/10_state.md R10), its faults and refusals, and the state after
reset (R26). -/

namespace Sys2Proof.Machine

/-- Memory: (address, byte) pairs in one canonical form, `Memory.wf` (Ops.lean). An unlisted address reads as its reset
contents, `Memory.background` (Ops.lean; R11, R26). -/
abbrev Memory := List Host.Cell

/-- The causes of `FAULTED(cause)`, the errors the spec calls fatal (R22, R135, R143). A fault is RAISED into `run`, a
next state (R141); `step` answers the outcome `fault cause` from a state that is already FAULTED, in which no cycle
runs: log 6, safe. -/
inductive Fault where
  /-- An access to an address outside 0..255, the first offending address; raised by fetch with pc >= 254 (R66, R138).
  Safe: the spec's own fault. -/
  | outOfBoundsAddress (addr : Nat)
  /-- The stack pointer (or the byte POP R7 would make it) out of range; raised by PUSH, POP, CALL, RET (R92, R139).
  Safe: the spec's own treatment of undefined behaviour. -/
  | stackBounds (sp : Byte)
  /-- A program image longer than the memory; raised by load (R41, R140). Safe: the spec's own fault. -/
  | loadOverflow (len : Nat)
  deriving DecidableEq, Repr

/-- Why the model gives no meaning. -/
inductive Refusal where
  /-- The instruction has no meaning in the model yet. Raised by an arm of `exec` only; no arm raises it now. Safe. -/
  | notModelled (mnemonic : String)
  deriving DecidableEq, Repr

/-- RUN (R22). -/
inductive RunState where
  | running
  | halted
  | faulted (cause : Fault)
  deriving DecidableEq, Repr

/-- An event of the output stream OUT: the instruction kind and one byte (R6, R112). -/
inductive OutEvent where
  | prn (v : Byte)
  | pra (v : Byte)
  deriving DecidableEq, Repr

/-- An event of the diagnostic stream DIAG: the kind, and the opcode byte or the pc (R6, R135). -/
inductive DiagEvent where
  | invalidInstruction (ir : Byte)
  | divideByZero (pc : PcWord)
  | moduloByZero (pc : PcWord)
  deriving DecidableEq, Repr

/-- The whole state (R10). The registers x[0..7] and SP are not fields: they are the cells M[0..7] (R12, R13). -/
structure State where
  /-- M[0..255] (R11). -/
  mem : Memory
  /-- The program counter, 9 bits, never wrapped (R16). -/
  pc : PcWord
  /-- The instruction register, transient (R18). -/
  ir : Byte
  /-- Operand latch a, transient (R19). -/
  opa : Byte
  /-- Operand latch b, transient (R19). -/
  opb : Byte
  /-- The flags: bit 0 Equal, bit 1 Greater, bit 2 Less (R20). -/
  fl : BitVec 3
  /-- The run state (R22). -/
  run : RunState
  /-- The output stream, oldest event first (R23). -/
  out : List OutEvent
  /-- The diagnostic stream, oldest event first (R23). -/
  diag : List DiagEvent
  /-- The MODEL's own: how many free values have been drawn (log 4). -/
  freeCount : Nat
  deriving DecidableEq, Repr

/-- The state after reset, before any load (R26). Memory lists nothing, so it reads as its reset contents. IR, opa and opb
are unspecified at reset: DESIGN CHOICE 0, log 2, unsafe. FL: log 3. freeCount: DESIGN CHOICE 0, log 4. -/
def State.reset : State where
  mem := []
  pc := Config.pcReset
  ir := 0
  opa := 0
  opb := 0
  fl := Config.flReset
  run := .running
  out := []
  diag := []
  freeCount := 0

end Sys2Proof.Machine
end

