-- ==== Sys2Proof/Machine/Ops.lean ====
section
/-! DEFINITION. The named operations over memory, registers, streams and the run state; raising a fault; the pc
sequencer; fetch; program load. -/

namespace Sys2Proof.Machine

/-! ## Memory (spec/20_memory.md) -/

/-- What an unlisted address reads as: the reset contents, 0 but for M[7] = 0xF4 (R26). -/
def Memory.background (a : Nat) : Byte := if a = Config.spReg.toNat then Config.spTop else 0

/-- Read one cell (R30). -/
def Memory.read (m : Memory) (a : Nat) : Byte :=
  match m with
  | [] => Memory.background a
  | (k, v) :: rest => if k = a then v else Memory.read rest a

/-- Put a pair before the first entry with a greater address. -/
def Memory.place (m : Memory) (a : Nat) (v : Byte) : Memory :=
  match m with
  | [] => [(a, v)]
  | (k, w) :: rest => if a < k then (a, v) :: (k, w) :: rest else (k, w) :: Memory.place rest a v

/-- Take every entry of an address out. -/
def Memory.erase (m : Memory) (a : Nat) : Memory := m.filter fun c => c.1 != a

/-- Write one cell, the whole of it (R30). Writing what an unlisted address reads as removes the entry. -/
def Memory.write (m : Memory) (a : Nat) (v : Byte) : Memory :=
  if v = Memory.background a then m.erase a else (m.erase a).place a v

/-- The canonical form: addresses strictly rising and below 256, no entry equal to what its address reads as unlisted. -/
abbrev Memory.wf (m : Memory) : Prop :=
  m.Pairwise (fun c d => c.1 < d.1) ∧ ∀ c ∈ m, c.1 < Config.memSize ∧ c.2 ≠ Memory.background c.1

/-- The memory that holds `f a` at every address a. -/
def Memory.ofCells (f : Nat → Byte) : Memory :=
  ((List.range Config.memSize).map fun a => (a, f a)).filter fun c => c.2 != Memory.background c.1

/-- Copy bytes to ascending addresses from `a` (R40). -/
def Memory.copyIn (m : Memory) (a : Nat) : List Byte → Memory
  | [] => m
  | b :: bs => Memory.copyIn (m.write a b) (a + 1) bs

/-! ## Cells and registers of a state -/

/-- `M[a]` for an 8-bit address, which is always in range (R31). -/
def State.rd (s : State) (a : Byte) : Byte := s.mem.read a.toNat

/-- `M[a] <- v` for an 8-bit address, which is always in range (R31). -/
def State.wr (s : State) (a v : Byte) : State := { s with mem := s.mem.write a.toNat v }

/-- `x[i]`: register i is the cell M[i] (R12). -/
def State.reg (s : State) (i : Fin Config.numRegs) : Byte := s.rd (BitVec.ofNat 8 i.val)

/-- `SP`: register 7, the cell M[7] (R13). -/
def State.sp (s : State) : Byte := s.rd Config.spReg

/-- `MemRead(a, 1)`: an address outside 0..255 raises OutOfBoundsAddress, and is never reduced (R6, R31). -/
def State.memRead (s : State) (a : Nat) : Except Fault Byte :=
  if a < Config.memSize then .ok (s.mem.read a) else .error (.outOfBoundsAddress a)

/-- `MemWrite(a, 1, v)`: an address outside 0..255 raises OutOfBoundsAddress, and is never reduced (R6, R31). -/
def State.memWrite (s : State) (a : Nat) (v : Byte) : Except Fault State :=
  if a < Config.memSize then .ok { s with mem := s.mem.write a v } else .error (.outOfBoundsAddress a)

/-! ## The other state -/

/-- `pc <- p`. -/
def State.setPc (s : State) (p : PcWord) : State := { s with pc := p }

/-- `FL <- f`, all three bits at once (R21). -/
def State.setFl (s : State) (f : BitVec 3) : State := { s with fl := f }

/-- `RUN <- HALTED` (R22). -/
def State.halt (s : State) : State := { s with run := .halted }

/-- `emit OUT(...)`: append to the output stream (R6, R23). -/
def State.emitOut (s : State) (e : OutEvent) : State := { s with out := s.out ++ [e] }

/-- `emit DIAG(...)`: append to the diagnostic stream (R6, R23). -/
def State.emitDiag (s : State) (e : DiagEvent) : State := { s with diag := s.diag ++ [e] }

/-! ## Raising a fault (spec/60_exceptions.md) -/

/-- `raise cause`: RUN <- FAULTED(cause), and IR, opa, opb become unspecified: three free values (R141, log 4). Memory, pc,
FL, OUT and DIAG stay. This is the machine's one exception entry: it saves nothing and goes nowhere (R146), and there is
no return from it (R147). -/
def State.raise (s : State) (cause : Fault) : State :=
  { s with
    run := .faulted cause
    ir := Config.freeByte s.freeCount
    opa := Config.freeByte (s.freeCount + 1)
    opb := Config.freeByte (s.freeCount + 2)
    freeCount := s.freeCount + 3 }

/-! ## The cycle's own parts (spec/40_cycle.md) -/

/-- The fetch step: IR, opa, opb from pc, pc+1, pc+2, always all three, each bounded (R66). -/
def State.fetch (s : State) : Except Fault State := do
  let ir ← s.memRead s.pc.toNat
  let a ← s.memRead (s.pc.toNat + 1)
  let b ← s.memRead (s.pc.toNat + 2)
  return { s with ir := ir, opa := a, opb := b }

/-- The advance step, driven by bits 7..6 and 4 of the opcode byte: `pc <- pc + N + 1` in 9 bits when P = 0, nothing when
P = 1 (R70, R71). -/
def State.advance (s : State) (ir : Byte) : State :=
  { s with pc := if setsPc ir then s.pc else s.pc + BitVec.ofNat 9 (operandCount ir + 1) }

/-- The end of a cycle in which the handler of `m` ran: the advance step, or the state of the raise, which runs no later
statement of the cycle (R65, R141). `s` is the state the handler started from. -/
def finish (m : Mnemonic) (s : State) : Except Fault State → Host.Outcome State Fault Refusal
  | .ok t => .next (t.advance (opcodeMap m))
  | .error cause => .next (s.raise cause)

/-- An invalid instruction: a report, no handler, then the advance step (R72, R136). With bit 4 set the pc stays (R73). -/
def State.invalidInstruction (s : State) (ir : Byte) : State :=
  (s.emitDiag (.invalidInstruction ir)).advance ir

/-! ## Program load (host operation, spec/20_memory.md R40, R41) -/

/-- `load(img)`: copy the image to address 0 upward, registers included (R40); an image over 256 bytes raises LoadOverflow
and leaves memory unspecified, 256 free values (R41, log 5). Load touches no other state. -/
def State.load (s : State) (img : List Byte) : State :=
  if img.length ≤ Config.memSize then { s with mem := s.mem.copyIn Config.loadBase img }
  else
    { s with
      mem := Memory.ofCells fun a => Config.freeByte (s.freeCount + a)
      run := .faulted (.loadOverflow img.length)
      freeCount := s.freeCount + Config.memSize }

/-- The state when the first cycle starts: reset, then one load (R156, R158). -/
def State.boot (img : List Byte) : State := State.reset.load img

end Sys2Proof.Machine
end

