-- ==== Sys2Proof/Machine/Flags.lean ====
section
/-! DEFINITION. The flags register: its bits (spec/10_state.md R20), the one computation that writes it (46_alu.md R131) and
the six conditions that read it (44_control_transfer.md R100). -/

namespace Sys2Proof.Machine

/-- `FL.E`, bit 0 (R20). -/
def State.flE (s : State) : Bool := s.fl.getLsbD 0

/-- `FL.G`, bit 1 (R20). -/
def State.flG (s : State) : Bool := s.fl.getLsbD 1

/-- `FL.L`, bit 2 (R20). -/
def State.flL (s : State) : Bool := s.fl.getLsbD 2

/-- FL written as a byte, 0b00000LGE (R20). -/
def State.flByte (s : State) : Byte := s.fl.setWidth 8

/-- FL after `CMP a, b`: all three bits cleared, then E, L or G set by the unsigned order (R131). -/
def compareFlags (a b : Byte) : BitVec 3 :=
  (if a.toNat = b.toNat then 0b001 else 0) ||| (if a.toNat < b.toNat then 0b100 else 0) |||
    (if b.toNat < a.toNat then 0b010 else 0)

/-- JEQ is taken when `FL.E = 1` (R100). -/
def State.isEqual (s : State) : Bool := s.flE

/-- JNE is taken when `FL.E = 0` (R100). -/
def State.isNotEqual (s : State) : Bool := !s.flE

/-- JGT is taken when `FL.G = 1` (R100). -/
def State.isGreater (s : State) : Bool := s.flG

/-- JGE is taken when `FL.G = 1 or FL.E = 1` (R100). -/
def State.isGreaterOrEqual (s : State) : Bool := s.flG || s.flE

/-- JLT is taken when `FL.L = 1` (R100). -/
def State.isLess (s : State) : Bool := s.flL

/-- JLE is taken when `FL.L = 1 or FL.E = 1` (R100). -/
def State.isLessOrEqual (s : State) : Bool := s.flL || s.flE

end Sys2Proof.Machine
end

