-- ==== Sys2Proof/Machine/Operands.lean ====
section
/-! DEFINITION. The operand forms (spec/42_load_store.md R88, 30_encoding.md R54) and the stack form (43_stack.md R92,
R93). The direct form is `State.rd` and `State.wr`; the immediate form is the operand byte itself. -/

namespace Sys2Proof.Machine

/-- Register-indirect read: the named cell's content is the address (R88, LD's second operand). -/
def State.rdIndirect (s : State) (r : Byte) : Byte := s.rd (s.rd r)

/-- The address a register-indirect write goes to: the named cell's content (R88, ST's first operand). -/
def State.indirectAddress (s : State) (r : Byte) : Byte := s.rd r

/-- A jump target: the content of the named cell, widened to the pc (R99). -/
def State.target (s : State) (r : Byte) : PcWord := (s.rd r).setWidth 9

/-- The address a push writes to: SP after the decrement (R32, R93). -/
def State.pushAddress (s : State) : Byte := s.sp - 1

/-- Push the byte `value` computes from the state after the decrement; SP = 0 raises StackBounds before any write (R92,
and D6 for the order). -/
def State.push (s : State) (value : State → Byte) : Except Fault State :=
  if s.sp = 0 then .error (.stackBounds s.sp)
  else
    let t := s.wr Config.spReg (s.sp - 1)
    .ok (t.wr t.sp (value t))

/-- The byte on top of the stack; SP >= 0xF4 raises StackBounds (R92). -/
def State.top (s : State) : Except Fault Byte :=
  if Config.spTop ≤ s.sp then .error (.stackBounds s.sp) else .ok (s.rd s.sp)

/-- `SP <- SP + 1` (R91, R97). -/
def State.dropTop (s : State) : State := s.wr Config.spReg (s.sp + 1)

end Sys2Proof.Machine
end

