-- ==== Sys2Proof/Machine/Alu.lean ====
section
/-! DEFINITION. The ALU and the meanings of its 14 instructions (spec/46_alu.md). The results are exact on natural numbers
and then reduced modulo 256 (R122). -/

namespace Sys2Proof.Machine

/-! ## The ALU's functions (R115) -/

/-- a + b modulo 256 (R116). -/
def aluAdd (a b : Byte) : Byte := BitVec.ofNat 8 (a.toNat + b.toNat)

/-- a - b modulo 256 (R117). -/
def aluSub (a b : Byte) : Byte := BitVec.ofInt 8 ((a.toNat : Int) - (b.toNat : Int))

/-- a * b modulo 256 (R118). -/
def aluMul (a b : Byte) : Byte := BitVec.ofNat 8 (a.toNat * b.toNat)

/-- The floor of a / b, for b not 0 (R119). -/
def aluDiv (a b : Byte) : Byte := BitVec.ofNat 8 (a.toNat / b.toNat)

/-- The remainder of a by b, for b not 0 (R120). -/
def aluMod (a b : Byte) : Byte := BitVec.ofNat 8 (a.toNat % b.toNat)

/-- Bitwise and (R124). -/
def aluAnd (a b : Byte) : Byte := a &&& b

/-- Bitwise or (R125). -/
def aluOr (a b : Byte) : Byte := a ||| b

/-- Bitwise exclusive or (R126). -/
def aluXor (a b : Byte) : Byte := a ^^^ b

/-- 255 - a (R127). -/
def aluNot (a : Byte) : Byte := BitVec.ofNat 8 (255 - a.toNat)

/-- x * 2^x modulo 256: the shift amount is the value shifted (R128, R130). -/
def aluShl (x : Byte) : Byte := BitVec.ofNat 8 (x.toNat * 2 ^ x.toNat)

/-- The floor of x / 2^x: the shift amount is the value shifted (R129, R130). -/
def aluShr (x : Byte) : Byte := BitVec.ofNat 8 (x.toNat / 2 ^ x.toNat)

/-- a + 1 modulo 256 (R132). -/
def aluInc (a : Byte) : Byte := BitVec.ofNat 8 (a.toNat + 1)

/-- a - 1 modulo 256 (R133). -/
def aluDec (a : Byte) : Byte := BitVec.ofInt 8 ((a.toNat : Int) - 1)

/-! ## The shapes of an ALU handler -/

/-- One operand, complemented or stepped in place (R115). -/
def aluUnary (f : Byte → Byte) (ra : Byte) (s : State) : State := s.wr ra (f (s.rd ra))

/-- Two operands, both read before the result is written to `ra` (R115). -/
def aluBinary (f : Byte → Byte → Byte) (ra rb : Byte) (s : State) : State := s.wr ra (f (s.rd ra) (s.rd rb))

/-- DIV and MOD: a zero divisor is reported and halts, with nothing written; the advance step still runs (R121). -/
def aluDivide (f : Byte → Byte → Byte) (report : PcWord → DiagEvent) (ra rb : Byte) (s : State) : State :=
  if s.rd rb = 0 then (s.emitDiag (report s.pc)).halt else aluBinary f ra rb s

/-! ## The meanings -/

/-- ADD (R116). -/
def execAdd (ra rb : Byte) (s : State) : Host.Outcome State Fault Refusal :=
  finish .add s (.ok (aluBinary aluAdd ra rb s))

/-- SUB (R117). -/
def execSub (ra rb : Byte) (s : State) : Host.Outcome State Fault Refusal :=
  finish .sub s (.ok (aluBinary aluSub ra rb s))

/-- MUL (R118). -/
def execMul (ra rb : Byte) (s : State) : Host.Outcome State Fault Refusal :=
  finish .mul s (.ok (aluBinary aluMul ra rb s))

/-- AND (R124). -/
def execAnd (ra rb : Byte) (s : State) : Host.Outcome State Fault Refusal :=
  finish .and s (.ok (aluBinary aluAnd ra rb s))

/-- OR (R125). -/
def execOr (ra rb : Byte) (s : State) : Host.Outcome State Fault Refusal :=
  finish .or s (.ok (aluBinary aluOr ra rb s))

/-- XOR (R126). -/
def execXor (ra rb : Byte) (s : State) : Host.Outcome State Fault Refusal :=
  finish .xor s (.ok (aluBinary aluXor ra rb s))

/-- DIV (R119, R121). -/
def execDiv (ra rb : Byte) (s : State) : Host.Outcome State Fault Refusal :=
  finish .div s (.ok (aluDivide aluDiv .divideByZero ra rb s))

/-- MOD (R120, R121). -/
def execMod (ra rb : Byte) (s : State) : Host.Outcome State Fault Refusal :=
  finish .mod s (.ok (aluDivide aluMod .moduloByZero ra rb s))

/-- NOT (R127). -/
def execNot (ra : Byte) (s : State) : Host.Outcome State Fault Refusal :=
  finish .not s (.ok (aluUnary aluNot ra s))

/-- INC (R132). -/
def execInc (ra : Byte) (s : State) : Host.Outcome State Fault Refusal :=
  finish .inc s (.ok (aluUnary aluInc ra s))

/-- DEC (R133). -/
def execDec (ra : Byte) (s : State) : Host.Outcome State Fault Refusal :=
  finish .dec s (.ok (aluUnary aluDec ra s))

/-- SHL: `M[rb]` is not read (R128, R130). -/
def execShl (ra _rb : Byte) (s : State) : Host.Outcome State Fault Refusal :=
  finish .shl s (.ok (aluUnary aluShl ra s))

/-- SHR: `M[rb]` is not read (R129, R130). -/
def execShr (ra _rb : Byte) (s : State) : Host.Outcome State Fault Refusal :=
  finish .shr s (.ok (aluUnary aluShr ra s))

/-- CMP: writes FL and nothing else (R131). -/
def execCmp (ra rb : Byte) (s : State) : Host.Outcome State Fault Refusal :=
  finish .cmp s (.ok (s.setFl (compareFlags (s.rd ra) (s.rd rb))))

end Sys2Proof.Machine
end

