-- ==== Sys2Proof/Machine/Control.lean ====
section
/-! DEFINITION. The meanings of JMP, CALL, RET and the six conditional jumps (spec/44_control_transfer.md). -/

namespace Sys2Proof.Machine

/-- The common form of the six conditional jumps: `pc <- M[ra]` when taken, else `pc <- pc + 2` (R100). -/
def jumpIf (taken : Bool) (ra : Byte) (s : State) : State := s.setPc (if taken then s.target ra else s.pc + 2)

/-- JMP: `pc <- M[ra]` (R95). -/
def execJmp (ra : Byte) (s : State) : Host.Outcome State Fault Refusal := finish .jmp s (.ok (s.setPc (s.target ra)))

/-- The handler of CALL (R96): push pc + 2, then read the target. The return address fits a byte in every cycle, since
fetch succeeded only with pc <= 253. -/
def callThrough (ra : Byte) (s : State) : Except Fault State :=
  match s.push fun _ => (s.pc + 2).setWidth 8 with
  | .error cause => .error cause
  | .ok t => .ok (t.setPc (t.target ra))

/-- CALL: push the return address, then `pc <- M[ra]` (R96). -/
def execCall (ra : Byte) (s : State) : Host.Outcome State Fault Refusal := finish .call s (callThrough ra s)

/-- The handler of RET (R97). -/
def returnFrom (s : State) : Except Fault State :=
  match s.top with
  | .error cause => .error cause
  | .ok v => .ok (s.setPc (v.setWidth 9)).dropTop

/-- RET: `pc <- M[SP]`, then SP <- SP + 1 (R97). -/
def execRet (s : State) : Host.Outcome State Fault Refusal := finish .ret s (returnFrom s)

/-- JEQ (R101). -/
def execJeq (ra : Byte) (s : State) : Host.Outcome State Fault Refusal :=
  finish .jeq s (.ok (jumpIf s.isEqual ra s))

/-- JNE (R102). -/
def execJne (ra : Byte) (s : State) : Host.Outcome State Fault Refusal :=
  finish .jne s (.ok (jumpIf s.isNotEqual ra s))

/-- JGT (R103). -/
def execJgt (ra : Byte) (s : State) : Host.Outcome State Fault Refusal :=
  finish .jgt s (.ok (jumpIf s.isGreater ra s))

/-- JGE (R104). -/
def execJge (ra : Byte) (s : State) : Host.Outcome State Fault Refusal :=
  finish .jge s (.ok (jumpIf s.isGreaterOrEqual ra s))

/-- JLT (R105). -/
def execJlt (ra : Byte) (s : State) : Host.Outcome State Fault Refusal :=
  finish .jlt s (.ok (jumpIf s.isLess ra s))

/-- JLE (R106). -/
def execJle (ra : Byte) (s : State) : Host.Outcome State Fault Refusal :=
  finish .jle s (.ok (jumpIf s.isLessOrEqual ra s))

end Sys2Proof.Machine
end

