-- ==== Sys2Proof/Machine/LoadStore.lean ====
section
/-! DEFINITION. The meanings of LDI, LD and ST (spec/42_load_store.md). -/

namespace Sys2Proof.Machine

/-- LDI: `M[ra] <- imm` (R85). -/
def execLdi (ra imm : Byte) (s : State) : Host.Outcome State Fault Refusal := finish .ldi s (.ok (s.wr ra imm))

/-- LD: `M[ra] <- M[M[rb]]`, both reads before the write (R86). -/
def execLd (ra rb : Byte) (s : State) : Host.Outcome State Fault Refusal :=
  finish .ld s (.ok (s.wr ra (s.rdIndirect rb)))

/-- ST: `M[M[ra]] <- M[rb]`, both reads before the write (R87). -/
def execSt (ra rb : Byte) (s : State) : Host.Outcome State Fault Refusal :=
  finish .st s (.ok (s.wr (s.indirectAddress ra) (s.rd rb)))

end Sys2Proof.Machine
end

