-- ==== Sys2Proof/Machine/Output.lean ====
section
/-! DEFINITION. The meanings of PRN and PRA, and the host's rendering of the output stream (spec/45_output.md). -/

namespace Sys2Proof.Machine

/-- PRN: `emit OUT(PRN, M[ra])` (R110). -/
def execPrn (ra : Byte) (s : State) : Host.Outcome State Fault Refusal :=
  finish .prn s (.ok (s.emitOut (.prn (s.rd ra))))

/-- PRA: `emit OUT(PRA, M[ra])` (R111). -/
def execPra (ra : Byte) (s : State) : Host.Outcome State Fault Refusal :=
  finish .pra s (.ok (s.emitOut (.pra (s.rd ra))))

/-- A decimal digit. -/
def digitChar (n : Nat) : Char := Char.ofNat (48 + n)

/-- A byte in decimal: unsigned, no leading zeros, no sign (R112). -/
def decimal (v : Byte) : List Char :=
  let n := v.toNat
  if n < 10 then [digitChar n]
  else if n < 100 then [digitChar (n / 10), digitChar (n % 10)]
  else [digitChar (n / 100), digitChar (n / 10 % 10), digitChar (n % 10)]

/-- The character of a byte: the one with that code point; for 128..255 the host's character set decides, a free value
(R112, log 10). -/
def character (v : Byte) : Char := if v.toNat < 128 then Char.ofNat v.toNat else Config.charset v

/-- The text of one output event, the host's part of output (R112). -/
def OutEvent.render : OutEvent → List Char
  | .prn v => decimal v ++ Config.lineSeparator
  | .pra v => character v :: Config.lineSeparator

/-- The text of an output stream, in program order (R112). -/
def renderStream (out : List OutEvent) : List Char := out.flatMap OutEvent.render

end Sys2Proof.Machine
end

