-- ==== Sys2Proof/Machine/Stack.lean ====
section
/-! DEFINITION. The meanings of PUSH and POP (spec/43_stack.md). -/

namespace Sys2Proof.Machine

/-- PUSH: SP <- SP - 1, then M[SP] <- M[ra], the source read after the decrement (R90). -/
def execPush (ra : Byte) (s : State) : Host.Outcome State Fault Refusal :=
  finish .push s (s.push fun t => t.rd ra)

/-- The handler of POP (R91): the popped byte is written to `ra` first, and SP is read again for the increment; a byte
of 0xF4 or more popped into R7 would leave the stack's region and raises StackBounds. -/
def popInto (ra : Byte) (s : State) : Except Fault State :=
  match s.top with
  | .error cause => .error cause
  | .ok v => if ra = Config.spReg ∧ Config.spTop ≤ v then .error (.stackBounds v) else .ok (s.wr ra v).dropTop

/-- POP: M[ra] <- M[SP], then SP <- SP + 1 (R91). -/
def execPop (ra : Byte) (s : State) : Host.Outcome State Fault Refusal := finish .pop s (popInto ra s)

end Sys2Proof.Machine
end

