-- ==== Sys2Proof/Machine/System.lean ====
section
/-! DEFINITION. The meanings of NOP, HLT and the two reserved slots (spec/41_system.md). -/

namespace Sys2Proof.Machine

/-- NOP: nothing, then pc + 1 (R81). -/
def execNop (s : State) : Host.Outcome State Fault Refusal := finish .nop s (.ok s)

/-- HLT: RUN <- HALTED; the advance step still runs, pc + 1 (R80). -/
def execHlt (s : State) : Host.Outcome State Fault Refusal := finish .hlt s (.ok s.halt)

/-- INT: a reserved slot behaves as an invalid opcode, and with bit 4 set the pc stays (R72, R73, R82). The operand byte is
fetched and ignored. -/
def execInt (_ra : Byte) (s : State) : Host.Outcome State Fault Refusal := .next (s.invalidInstruction (opcodeMap .int))

/-- IRET: a reserved slot behaves as an invalid opcode, and with bit 4 set the pc stays (R72, R73, R82). -/
def execIret (s : State) : Host.Outcome State Fault Refusal := .next (s.invalidInstruction (opcodeMap .iret))

end Sys2Proof.Machine
end

