-- ==== Sys2Proof/Machine/Step.lean ====
section
/-! DEFINITION. One step: one cycle of the fetch-decode-execute loop (spec/40_cycle.md R65), and the host's way of placing
the next instruction. -/

namespace Sys2Proof.Machine

/-- The cycle of a RUNNING machine: fetch, which may raise; dispatch on the latched bytes to a meaning, which ends with
the advance step; or the report of an invalid instruction (R65, R66, R68, R72). -/
def cycle (s : State) : Host.Outcome State Fault Refusal :=
  match s.fetch with
  | .error cause => .next (s.raise cause)
  | .ok t =>
    match decodeLatched opcodeMap t.ir t.opa t.opb with
    | .ok i => exec i t
    | .error _ => .next (t.invalidInstruction t.ir)

/-- One step. HALTED: nothing happens, the state is frozen (R65, R74). FAULTED: no cycle runs, the machine has stopped with
its fault (R65, R141); log 6. -/
def step (s : State) : Host.Outcome State Fault Refusal :=
  match s.run with
  | .running => cycle s
  | .halted => .next s
  | .faulted cause => .fault cause

/-- Where the next instruction is fetched: the pc, or 0 where the pc is one from which no instruction can be fetched
(R66). -/
def State.fetchAddress (s : State) : PcWord := if s.pc.toNat + 2 < Config.memSize then s.pc else 0

/-- `s` with the instruction `w` stored where the next step fetches, so that this step runs exactly it. What the fetch
needs besides the bytes is set too: RUN = RUNNING, and a pc of at most 253 (R65, R66). It stands for the program load
(R40); log 9. -/
def State.withFetchWord (s : State) (nbits w : Nat) : State :=
  { s with
    mem := s.mem.copyIn s.fetchAddress.toNat (bytesOfWord nbits w)
    pc := s.fetchAddress
    run := .running }

end Sys2Proof.Machine
end

