-- ==== Sys2Proof/Safety.lean ====
section
/-! DEFINITION. The terms the claims use: what a cycle can fetch, frames, a faulting cycle, and the invariant of the
machine. -/

namespace Sys2Proof.Machine

/-- All three fetch addresses are in range: pc <= 253 (R66). -/
abbrev State.canFetch (s : State) : Prop := s.pc.toNat ≤ 253

/-- The opcode byte the next cycle fetches. -/
def State.opcodeAt (s : State) : Byte := s.mem.read s.pc.toNat

/-- The candidate operand a the next cycle fetches. -/
def State.operandAt (s : State) : Byte := s.mem.read (s.pc.toNat + 1)

/-- The candidate operand b the next cycle fetches. -/
def State.operandBAt (s : State) : Byte := s.mem.read (s.pc.toNat + 2)

/-- The state after a fetch that was in range: the three latches are loaded (R66). -/
def State.latched (s : State) : State := { s with ir := s.opcodeAt, opa := s.operandAt, opb := s.operandBAt }

/-- An opcode byte that is none of the 32 valid ones, the reserved slots among them (R58, R72). -/
def isInvalid (ir : Byte) : Prop := ∀ m : Mnemonic, m.reserved = false → opcodeMap m ≠ ir

/-- The cells the next cycle stores to with the bytes it leaves there, when it dispatches on `m`, does not fault, and its
operands are the bytes fetched from `s` (R32, and the rule of each instruction). No cell is listed twice: where the slot of a
push is R7 the pushed byte is what stays, and POP R7 leaves the popped byte plus one (R90, R91, R96, decision D6). -/
def State.stores (s : State) (m : Mnemonic) : List (Byte × Byte) :=
  let a := s.operandAt
  let b := s.operandBAt
  let slot := s.sp - 1
  match m with
  | .ldi => [(a, b)]
  | .ld => [(a, s.rd (s.rd b))]
  | .st => [(s.rd a, s.rd b)]
  | .push => (slot, if a = 7 then slot else s.rd a) :: if slot = 7 then [] else [(7, slot)]
  | .call => (slot, (s.pc + 2).setWidth 8) :: if slot = 7 then [] else [(7, slot)]
  | .pop => if a = 7 then [(7, s.rd s.sp + 1)] else [(a, s.rd s.sp), (7, s.sp + 1)]
  | .ret => [(7, s.sp + 1)]
  | .add => [(a, aluAdd (s.rd a) (s.rd b))]
  | .sub => [(a, aluSub (s.rd a) (s.rd b))]
  | .mul => [(a, aluMul (s.rd a) (s.rd b))]
  | .div => if s.rd b = 0 then [] else [(a, aluDiv (s.rd a) (s.rd b))]
  | .mod => if s.rd b = 0 then [] else [(a, aluMod (s.rd a) (s.rd b))]
  | .and => [(a, aluAnd (s.rd a) (s.rd b))]
  | .or => [(a, aluOr (s.rd a) (s.rd b))]
  | .xor => [(a, aluXor (s.rd a) (s.rd b))]
  | .not => [(a, aluNot (s.rd a))]
  | .inc => [(a, aluInc (s.rd a))]
  | .dec => [(a, aluDec (s.rd a))]
  | .shl => [(a, aluShl (s.rd a))]
  | .shr => [(a, aluShr (s.rd a))]
  | .nop | .hlt | .prn | .pra | .jmp | .jeq | .jne | .jgt | .jlt | .jle | .jge | .cmp | .int | .iret => []

/-! ## Frames, from a state `s` to a state `t` -/

/-- The cell `a` holds `v` after, and every other cell of all 256, the registers among them, is unchanged. -/
def WritesOnly (s t : State) (a v : Byte) : Prop := t.rd a = v ∧ ∀ x, x ≠ a → t.rd x = s.rd x

/-- Every cell, the registers among them, is unchanged. -/
def KeepsMemory (s t : State) : Prop := ∀ x, t.rd x = s.rd x

/-- The transient latches and the model's own counter are unchanged. -/
def KeepsLatches (s t : State) : Prop := t.ir = s.ir ∧ t.opa = s.opa ∧ t.opb = s.opb ∧ t.freeCount = s.freeCount

/-- Both event streams are unchanged. -/
def KeepsStreams (s t : State) : Prop := t.out = s.out ∧ t.diag = s.diag

/-- Everything but memory and the pc is unchanged: flags, run state, streams, latches. -/
def KeepsRest (s t : State) : Prop := t.fl = s.fl ∧ t.run = s.run ∧ KeepsStreams s t ∧ KeepsLatches s t

/-- A faulting cycle: RUN becomes FAULTED(cause), and memory, pc, FL, OUT and DIAG are as before (R141). The latches are
unspecified, so nothing is said of them. -/
def FaultsWith (s t : State) (cause : Fault) : Prop :=
  t.run = .faulted cause ∧ t.mem = s.mem ∧ t.pc = s.pc ∧ t.fl = s.fl ∧ KeepsStreams s t

/-- A conditional jump in the state `s`: it completes, takes the target in the cell `ra` when `cond` holds and pc + 2 when it
does not, and changes nothing else (R100). -/
def JumpsWhen (i : Instr) (ra : Byte) (s : State) (cond : Prop) : Prop :=
  ∃ t, exec i s = .next t ∧ (cond → t.pc.toNat = (s.rd ra).toNat) ∧ (¬cond → t.pc = s.pc + 2) ∧ KeepsMemory s t ∧
    KeepsRest s t

/-- An instruction that completes in `s`, writes `v` to the cell `a` and to no other, moves the pc by `n`, and changes
nothing else. -/
def WritesAndAdvances (i : Instr) (s : State) (a v : Byte) (n : Nat) : Prop :=
  ∃ t, exec i s = .next t ∧ WritesOnly s t a v ∧ t.pc = s.pc + BitVec.ofNat 9 n ∧ KeepsRest s t

/-! ## The invariant -/

/-- The flags are clear, or exactly one of E, G, L is set (R21, R26). -/
abbrev legalFlags (f : BitVec 3) : Prop := f = 0b000 ∨ f = 0b001 ∨ f = 0b010 ∨ f = 0b100

/-- A FAULTED state holds a cause that can arise there (R66, R91, R92, R41). -/
def State.faultLegal (s : State) : Prop :=
  match s.run with
  | .faulted (.outOfBoundsAddress a) => 254 ≤ s.pc.toNat ∧ a = max 256 s.pc.toNat
  | .faulted (.stackBounds b) => b = 0 ∨ Config.spTop ≤ b
  | .faulted (.loadOverflow len) => Config.memSize < len
  | .running => True
  | .halted => True

/-- What holds in every state of a run: memory is in canonical form, the pc is in 0..257 (R16), the flags are legal (R21), a
fault is one that can arise. -/
structure State.Inv (s : State) : Prop where
  wf : s.mem.wf
  pc_le : s.pc.toNat ≤ 257
  flags : legalFlags s.fl
  fault : s.faultLegal

end Sys2Proof.Machine
end

