-- ==== Sys2Proof/Certificates/Slice0/Obligations.lean ====
section
/-! DEFINITION. The statements for the provers: what the spec's rules say of encodings, the cycle, whole-machine
properties, and each instruction with its frame. The low nibbles of 27 opcodes are the spec's own (G1, log 7), and so are
its decisions D<n> (log 8): a statement that rests on one names it. -/

open Sys2Proof Sys2Proof.Machine

/-! ## Encoding -/

/-- Under every opcode map that meets the constraints of R55 and D12, an encoded instruction decodes to itself with every
operand byte, whatever follows (R50, R52, R54, R68; the constraint of distinct bytes is D12's). -/
def Obligations.EveryOpcodeMapRoundTrips : Prop :=
  ∀ map : OpcodeMap, map.wellFormed = true → ∀ (i : Instr) (rest : List Byte),
    decodeWith map (encodeWith map i ++ rest) = .ok (i, rest)

/-- The other direction: bytes that decode to an instruction begin with that instruction's encoding (R50, R52, D12). -/
def Obligations.DecodedBytesAreTheEncoding : Prop :=
  ∀ map : OpcodeMap, map.wellFormed = true → ∀ (bytes rest : List Byte) (i : Instr),
    decodeWith map bytes = .ok (i, rest) → bytes = encodeWith map i ++ rest

/-- Every row of R56 (and the two slots of R57), its byte written out in binary, decodes to its instruction. The low nibbles
of 27 of them are the spec's own (G1, log 7). -/
def Obligations.DecodesTheWrittenOpcodes : Prop :=
  ∀ (a b : Byte) (rest : List Byte),
    decode (0b00000000 :: rest) = .ok (.nop, rest) ∧ decode (0b00000001 :: rest) = .ok (.hlt, rest) ∧
    decode (0b00010001 :: rest) = .ok (.ret, rest) ∧ decode (0b01000101 :: a :: rest) = .ok (.push a, rest) ∧
    decode (0b01000110 :: a :: rest) = .ok (.pop a, rest) ∧ decode (0b01000111 :: a :: rest) = .ok (.prn a, rest) ∧
    decode (0b01001000 :: a :: rest) = .ok (.pra a, rest) ∧ decode (0b01010000 :: a :: rest) = .ok (.call a, rest) ∧
    decode (0b01010100 :: a :: rest) = .ok (.jmp a, rest) ∧ decode (0b01010101 :: a :: rest) = .ok (.jeq a, rest) ∧
    decode (0b01010110 :: a :: rest) = .ok (.jne a, rest) ∧ decode (0b01010111 :: a :: rest) = .ok (.jgt a, rest) ∧
    decode (0b01011000 :: a :: rest) = .ok (.jlt a, rest) ∧ decode (0b01011001 :: a :: rest) = .ok (.jle a, rest) ∧
    decode (0b01011010 :: a :: rest) = .ok (.jge a, rest) ∧ decode (0b01100101 :: a :: rest) = .ok (.inc a, rest) ∧
    decode (0b01100110 :: a :: rest) = .ok (.dec a, rest) ∧ decode (0b01101001 :: a :: rest) = .ok (.not a, rest) ∧
    decode (0b10000010 :: a :: b :: rest) = .ok (.ldi a b, rest) ∧
    decode (0b10000011 :: a :: b :: rest) = .ok (.ld a b, rest) ∧
    decode (0b10000100 :: a :: b :: rest) = .ok (.st a b, rest) ∧
    decode (0b10100000 :: a :: b :: rest) = .ok (.add a b, rest) ∧
    decode (0b10100001 :: a :: b :: rest) = .ok (.sub a b, rest) ∧
    decode (0b10100010 :: a :: b :: rest) = .ok (.mul a b, rest) ∧
    decode (0b10100011 :: a :: b :: rest) = .ok (.div a b, rest) ∧
    decode (0b10100100 :: a :: b :: rest) = .ok (.mod a b, rest) ∧
    decode (0b10100111 :: a :: b :: rest) = .ok (.cmp a b, rest) ∧
    decode (0b10101000 :: a :: b :: rest) = .ok (.and a b, rest) ∧
    decode (0b10101010 :: a :: b :: rest) = .ok (.or a b, rest) ∧
    decode (0b10101011 :: a :: b :: rest) = .ok (.xor a b, rest) ∧
    decode (0b10101100 :: a :: b :: rest) = .ok (.shl a b, rest) ∧
    decode (0b10101101 :: a :: b :: rest) = .ok (.shr a b, rest) ∧
    decode (0b01010010 :: a :: rest) = .ok (.int a, rest) ∧ decode (0b00010011 :: rest) = .ok (.iret, rest)

/-- The fields of every opcode: N is the number of operand bytes, L is set exactly for the 14 ALU instructions, P exactly for
the nine that set the pc and the two reserved slots, and no two instructions share I together with N, L and P (R51, R55,
R56; the slots' bytes are G2's). -/
def Obligations.OpcodeFieldsMatchTheHandlers : Prop :=
  ∀ i : Instr,
    operandCount (opcodeMap i.mnemonic) = i.operands.length ∧
    (aluMarker (opcodeMap i.mnemonic) = true ↔ i.mnemonic ∈ [Mnemonic.add, .sub, .mul, .div, .mod, .inc, .dec, .and, .or,
      .xor, .not, .shl, .shr, .cmp]) ∧
    (setsPc (opcodeMap i.mnemonic) = true ↔ i.mnemonic ∈ [Mnemonic.jmp, .call, .ret, .jeq, .jne, .jgt, .jge, .jlt, .jle,
      .int, .iret]) ∧
    ∀ j : Instr, opcodeMap j.mnemonic = opcodeMap i.mnemonic → j.mnemonic = i.mnemonic

/-- The three formats: one, two or three bytes, the opcode byte first, bits 7..6 telling which (R50). -/
def Obligations.ThreeFormatsOfOneTwoOrThreeBytes : Prop :=
  ∀ i : Instr,
    (∃ op, encode i = [op] ∧ op.extractLsb' 6 2 = 0b00) ∨ (∃ op a, encode i = [op, a] ∧ op.extractLsb' 6 2 = 0b01) ∨
      (∃ op a b, encode i = [op, a, b] ∧ op.extractLsb' 6 2 = 0b10)

/-! ## The cycle -/

/-- A step runs the decoded instruction: fetch latches the three bytes, and the step is the meaning of what they decode to,
in the state with the latches loaded. The meaning itself ends with the advance step (R65, R66, R68, R69). -/
def Obligations.StepRunsTheDecodedInstruction : Prop :=
  ∀ (s : State) (i : Instr) (rest : List Byte), s.run = .running → s.canFetch →
    decode [s.mem.read s.pc.toNat, s.mem.read (s.pc.toNat + 1), s.mem.read (s.pc.toNat + 2)] = .ok (i, rest) →
    step s = exec i { s with
      ir := s.mem.read s.pc.toNat
      opa := s.mem.read (s.pc.toNat + 1)
      opb := s.mem.read (s.pc.toNat + 2) }

/-- Fetch always reads three bytes: with pc in 0..253 the latches are loaded, and with a greater pc the cycle faults on the
first address outside memory, whatever the instruction, and changes nothing but RUN and the latches (R66, the spec's
decision D3). -/
def Obligations.FetchLoadsThreeBytesOrFaults : Prop :=
  ∀ s : State, s.run = .running →
    (s.pc.toNat ≤ 253 → ∃ t, step s = .next t ∧ ((∃ b, t.run = .faulted (.stackBounds b)) ∨
      (t.ir = s.mem.read s.pc.toNat ∧ t.opa = s.mem.read (s.pc.toNat + 1) ∧ t.opb = s.mem.read (s.pc.toNat + 2)))) ∧
    (s.pc.toNat = 254 ∨ s.pc.toNat = 255 → ∃ t, step s = .next t ∧ FaultsWith s t (.outOfBoundsAddress 256)) ∧
    (256 ≤ s.pc.toNat → ∃ t, step s = .next t ∧ FaultsWith s t (.outOfBoundsAddress s.pc.toNat))

/-- An invalid instruction is reported and execution continues: memory, flags and RUN are unchanged, and the pc moves by
N + 1 when bit 4 is 0 and stays when it is 1 (R72). -/
def Obligations.InvalidInstructionReportsAndContinues : Prop :=
  ∀ s : State, s.run = .running → s.canFetch → isInvalid s.opcodeAt →
    ∃ t, step s = .next t ∧ t.diag = s.diag ++ [.invalidInstruction s.opcodeAt] ∧ KeepsMemory s t ∧ t.fl = s.fl ∧
      t.run = .running ∧ t.out = s.out ∧
      (s.opcodeAt.getLsbD 4 = false → t.pc.toNat = s.pc.toNat + (s.opcodeAt.extractLsb' 6 2).toNat + 1) ∧
      (s.opcodeAt.getLsbD 4 = true → t.pc = s.pc)

/-- An invalid opcode with bit 4 set hangs the machine: after any number of cycles it is RUNNING at the same pc with the same
memory, and one report has been emitted per cycle (R73). -/
def Obligations.InvalidInstructionWithBit4Hangs : Prop :=
  ∀ (n : Nat) (s : State), s.run = .running → s.canFetch → isInvalid s.opcodeAt → s.opcodeAt.getLsbD 4 = true →
    ∃ t, Sys2Proof.core.run n s = .next t ∧ t.run = .running ∧ t.pc = s.pc ∧ KeepsMemory s t ∧ t.fl = s.fl ∧
      t.out = s.out ∧ t.diag = s.diag ++ List.replicate n (.invalidInstruction s.opcodeAt)

/-- Bits 7..6 = 11: every byte 0xC0..0xFF is invalid, and one with bit 4 = 0 moves the pc by 4 (R59). -/
def Obligations.OperandCountThreeIsInvalid : Prop :=
  (∀ ir : Byte, 0xC0 ≤ ir.toNat → isInvalid ir) ∧
    ∀ s : State, s.run = .running → s.canFetch → 0xC0 ≤ s.opcodeAt.toNat → s.opcodeAt.getLsbD 4 = false →
      ∃ t, step s = .next t ∧ t.pc.toNat = s.pc.toNat + 4

/-- Every byte that is not one of the 32 opcodes, 224 of them and the reserved slots among them, is an invalid instruction:
reported, and the machine goes on (R58). -/
def Obligations.EveryOtherOpcodeIsInvalid : Prop :=
  (Mnemonic.all.filter fun m => !m.reserved).length = 32 ∧
    ((List.range 256).filter fun n => (Mnemonic.all.all fun m => m.reserved || opcodeMap m != BitVec.ofNat 8 n)).length
      = 224 ∧
    isInvalid (opcodeMap .int) ∧ isInvalid (opcodeMap .iret) ∧
    ∀ s : State, s.run = .running → s.canFetch → (∀ m : Mnemonic, opcodeMap m = s.opcodeAt → m.reserved = true) →
      ∃ t, step s = .next t ∧ t.diag = s.diag ++ [.invalidInstruction s.opcodeAt] ∧ t.run = .running

/-- How a run ends: HALTED by HLT or by DIV or MOD with a zero divisor and by nothing else, in a cycle that completes its
advance step; FAULTED by a fault of the fetch bounds or the stack; then the state is frozen. While RUN is RUNNING the
machine takes another cycle (R74). -/
def Obligations.RunEndsOnlyByHaltOrFault : Prop :=
  ∀ s t : State, s.run = .running → step s = .next t →
    (t.run = .halted → ∃ m, lookup opcodeMap s.opcodeAt = some m ∧
      (m = .hlt ∨ ((m = .div ∨ m = .mod) ∧ s.rd s.operandBAt = 0)) ∧
      t.pc.toNat = s.pc.toNat + operandCount s.opcodeAt + 1) ∧
    (s.canFetch → ∀ m, lookup opcodeMap s.opcodeAt = some m →
      (m = .hlt ∨ ((m = .div ∨ m = .mod) ∧ s.rd s.operandBAt = 0)) → t.run = .halted) ∧
    (∀ c, t.run = .faulted c → (∃ a, c = .outOfBoundsAddress a) ∨ ∃ b, c = .stackBounds b) ∧
    (t.run ≠ .running → ∀ u, step t = .next u → u = t) ∧
    (t.run = .running → ∃ u, step t = .next u)

/-- Where every cycle leaves the pc, instruction by instruction, for every cycle that does not fault (R17). That CALL reads
its target after the push, M[ra] of the state after, is the spec's decision D6 (R96, log 8). -/
def Obligations.PcAfterEveryCycle : Prop :=
  ∀ s t : State, s.run = .running → s.canFetch → step s = .next t → (∀ c, t.run ≠ .faulted c) →
    (∀ m, lookup opcodeMap s.opcodeAt = some m →
      (m ∈ [Mnemonic.nop, .hlt] → t.pc.toNat = s.pc.toNat + 1) ∧
      (m ∈ [Mnemonic.push, .pop, .prn, .pra, .inc, .dec, .not] → t.pc.toNat = s.pc.toNat + 2) ∧
      (m ∈ [Mnemonic.ldi, .ld, .st, .add, .sub, .mul, .div, .mod, .and, .or, .xor, .shl, .shr, .cmp] →
        t.pc.toNat = s.pc.toNat + 3) ∧
      (m ∈ [Mnemonic.jmp, .call] → t.pc.toNat = (t.rd s.operandAt).toNat) ∧
      (m = .jeq → t.pc.toNat = if s.flE then (s.rd s.operandAt).toNat else s.pc.toNat + 2) ∧
      (m = .jne → t.pc.toNat = if s.flE then s.pc.toNat + 2 else (s.rd s.operandAt).toNat) ∧
      (m = .jgt → t.pc.toNat = if s.flG then (s.rd s.operandAt).toNat else s.pc.toNat + 2) ∧
      (m = .jge → t.pc.toNat = if s.flG || s.flE then (s.rd s.operandAt).toNat else s.pc.toNat + 2) ∧
      (m = .jlt → t.pc.toNat = if s.flL then (s.rd s.operandAt).toNat else s.pc.toNat + 2) ∧
      (m = .jle → t.pc.toNat = if s.flL || s.flE then (s.rd s.operandAt).toNat else s.pc.toNat + 2) ∧
      (m = .ret → t.pc.toNat = (s.rd s.sp).toNat)) ∧
    (isInvalid s.opcodeAt → s.opcodeAt.getLsbD 4 = false →
      t.pc.toNat = s.pc.toNat + (s.opcodeAt.extractLsb' 6 2).toNat + 1) ∧
    (isInvalid s.opcodeAt → s.opcodeAt.getLsbD 4 = true → t.pc = s.pc)

/-! ## Whole-machine rules -/

/-- Only CMP changes the flags, and after a CMP exactly one of E, G, L is set (R21). -/
def Obligations.FlagsChangeOnlyByCompare : Prop :=
  ∀ s t : State, s.run = .running → step s = .next t →
    (t.fl ≠ s.fl → s.canFetch ∧ lookup opcodeMap s.opcodeAt = some .cmp) ∧
    (s.canFetch → lookup opcodeMap s.opcodeAt = some .cmp → t.fl = 0b001 ∨ t.fl = 0b010 ∨ t.fl = 0b100)

/-- The flags are read by the six conditional jumps alone: every other cycle does the same whatever the flags are, a cycle that
faults in the fetch among them, and keeps them; a CMP forgets them, and ends in one and the same state whatever they were
(R21, R115, R131). -/
def Obligations.FlagsReadOnlyByConditionalJumps : Prop :=
  ∀ (s t : State) (f : BitVec 3), s.run = .running → step s = .next t →
    (254 ≤ s.pc.toNat → step { s with fl := f } = .next { t with fl := f }) ∧
    ((∀ m ∈ [Mnemonic.jeq, .jne, .jgt, .jge, .jlt, .jle, .cmp], lookup opcodeMap s.opcodeAt ≠ some m) →
      step { s with fl := f } = .next { t with fl := f }) ∧
    (s.canFetch → lookup opcodeMap s.opcodeAt = some .cmp → step { s with fl := f } = .next t)

/-- The two streams are append-only, by at most one event a cycle, and no cycle reads them: with other streams the same
cycle does the same and appends the same events (R23; the streams are the spec's decision D11). -/
def Obligations.StreamsAppendOnlyAndUnread : Prop :=
  ∀ (s t : State) (out : List OutEvent) (diag : List DiagEvent), s.run = .running → step s = .next t →
    ∃ eo ed, eo.length ≤ 1 ∧ ed.length ≤ 1 ∧ t.out = s.out ++ eo ∧ t.diag = s.diag ++ ed ∧
      step { s with out := out, diag := diag } = .next { t with out := out ++ eo, diag := diag ++ ed }

/-- At most one event in a cycle, in the order of checks: the fetch bounds, then the table look-up, then the one event the
instruction can have (R145). -/
def Obligations.AtMostOneEventInCheckOrder : Prop :=
  ∀ s t : State, s.run = .running → step s = .next t →
    (254 ≤ s.pc.toNat → (∃ a, t.run = .faulted (.outOfBoundsAddress a)) ∧ t.diag = s.diag) ∧
    (s.canFetch → isInvalid s.opcodeAt → t.run = .running ∧ t.diag = s.diag ++ [.invalidInstruction s.opcodeAt]) ∧
    (s.canFetch → ∀ m, lookup opcodeMap s.opcodeAt = some m → m.reserved = false →
      (∀ c, t.run = .faulted c → m ∈ [Mnemonic.push, .pop, .call, .ret] ∧ (∃ b, c = .stackBounds b) ∧ t.diag = s.diag) ∧
      (t.diag ≠ s.diag → t.run = .halted ∧ ((m = .div ∧ t.diag = s.diag ++ [.divideByZero s.pc]) ∨
        (m = .mod ∧ t.diag = s.diag ++ [.moduloByZero s.pc]))))

/-- A faulting cycle changes nothing but RUN and the latches, and FAULTED is terminal (R141; the state FAULTED is the spec's
decision D4, and that the next step answers the outcome fault is log 6). -/
def Obligations.FaultingCycleChangesOnlyRun : Prop :=
  ∀ (s t : State) (c : Fault), s.run = .running → step s = .next t → t.run = .faulted c →
    FaultsWith s t c ∧ step t = .fault c

/-- The latches are never read before a fetch writes them: the step of a RUNNING machine is the same whatever they hold, and
the model's own counter reaches nothing but the latches of a fault (R18, R19, R26; log 2 and 4). -/
def Obligations.LatchesAreNeverReadBeforeFetch : Prop :=
  ∀ (s : State) (ir opa opb : Byte) (n : Nat), s.run = .running →
    step { s with ir := ir, opa := opa, opb := opb } = step s ∧
    ∀ t, step s = .next t → (∀ c, t.run ≠ .faulted c) → step { s with freeCount := n } = .next { t with freeCount := n }

/-- Every RUNNING machine has a next state, HALTED and FAULTED machines never run a cycle, and no step is refused (R65,
R170; what step answers in the two terminal states is log 6). -/
def Obligations.EveryRunningStateHasNextState : Prop :=
  ∀ s : State, (s.run = .running → ∃ t, step s = .next t) ∧ (s.run = .halted → step s = .next s) ∧
    (∀ c, s.run = .faulted c → step s = .fault c) ∧ ∀ r, step s ≠ .refused r

/-- The cells a cycle can change, over all instructions: the destination operand, the cell a ST points to, the stack pointer
and the pushed slot of the stack instructions (R15, R32, R115). -/
def Obligations.EveryCycleWritesOnlyItsDestination : Prop :=
  ∀ (s t : State) (x : Byte), s.run = .running → step s = .next t → t.rd x ≠ s.rd x →
    ∃ m, lookup opcodeMap s.opcodeAt = some m ∧
      ((m ∈ [Mnemonic.ldi, .ld, .pop, .add, .sub, .mul, .div, .mod, .and, .or, .xor, .not, .shl, .shr, .inc, .dec] ∧
          x = s.operandAt) ∨
        (m = .st ∧ x = s.rd s.operandAt) ∨ (m ∈ [Mnemonic.push, .pop, .call, .ret] ∧ x = 7) ∨
        (m ∈ [Mnemonic.push, .call] ∧ x = s.sp - 1))

/-- An instruction runs as latched and the next fetch sees its stores. In every cycle that does not fault, whatever cell the
instruction writes, its own bytes among them: the latches keep the fetched bytes, its stores are those of the fetched
operands and no other cell changes, and the pc moves by the latched N + 1 where the latched P is 0. The very next cycle
fetches every byte just stored, for every instruction that writes a cell: the register writers, ST, and the stack
instructions (R39, R69, R165; the bytes PUSH R7 and POP R7 store are the spec's decision D6, log 8). -/
def Obligations.StoresReachTheNextFetchOnly : Prop :=
  ∀ (s t : State) (m : Mnemonic), s.run = .running → s.canFetch → lookup opcodeMap s.opcodeAt = some m →
    step s = .next t → (∀ c, t.run ≠ .faulted c) →
      (t.ir = s.opcodeAt ∧ t.opa = s.operandAt ∧ t.opb = s.operandBAt) ∧
      (∀ d v, (d, v) ∈ s.stores m → t.rd d = v) ∧
      (∀ x, (∀ v, (x, v) ∉ s.stores m) → t.rd x = s.rd x) ∧
      (setsPc s.opcodeAt = false → t.pc.toNat = s.pc.toNat + operandCount s.opcodeAt + 1) ∧
      ∀ u, t.run = .running → t.canFetch → step t = .next u → (∀ c, u.run ≠ .faulted c) →
        ∀ d v, (d, v) ∈ s.stores m →
          (d.toNat = t.pc.toNat → u.ir = v) ∧ (d.toNat = t.pc.toNat + 1 → u.opa = v) ∧
            (d.toNat = t.pc.toNat + 2 → u.opb = v)

/-! ## Memory, reset, load, the invariant -/

/-- A read returns the value last written, by a write of the whole cell, or the reset value; every other cell reads as
before (R30). -/
def Obligations.ReadReturnsTheLastWrite : Prop :=
  (∀ (s : State) (a : Nat) (v : Byte), a ≤ 255 →
    ∃ t, s.memWrite a v = .ok t ∧ t.memRead a = .ok v ∧ ∀ b, b ≠ a → t.memRead b = s.memRead b) ∧
  ∀ a, a ≤ 255 → State.reset.memRead a = .ok (if a = 7 then 0xF4 else 0)

/-- An access outside 0..255 raises OutOfBoundsAddress with that very address, and a byte address never does (R31). -/
def Obligations.AddressesOutsideMemoryRaise : Prop :=
  ∀ (s : State) (v : Byte), (∀ a, 255 < a →
      s.memRead a = .error (.outOfBoundsAddress a) ∧ s.memWrite a v = .error (.outOfBoundsAddress a)) ∧
    ∀ a : Byte, s.memRead a.toNat = .ok (s.rd a) ∧ s.memWrite a.toNat v = .ok (s.wr a v)

/-- Two memories in canonical form that read alike at all 256 addresses are equal data. -/
def Obligations.CanonicalMemoriesThatReadAlikeAreEqual : Prop :=
  ∀ m n : Memory, m.wf → n.wf → (∀ a, a ≤ 255 → m.read a = n.read a) → m = n

/-- A register is the memory cell of its number: a write by LDI, ST, PUSH or load of cell i is a write of register i, and the
write of a register is a write of its cell (R12). That PUSH R7 pushes the decremented stack pointer is the spec's decision D6
(R90, log 8). -/
def Obligations.RegistersAreTheFirstCells : Prop :=
  ∀ (s : State) (i : Fin 8),
    s.memRead i.val = .ok (s.reg i) ∧
    (∀ v, ∃ t, exec (.ldi (BitVec.ofNat 8 i.val) v) s = .next t ∧ t.reg i = v ∧ t.memRead i.val = .ok v) ∧
    (∀ ra rb, (s.rd ra).toNat = i.val → ∃ t, exec (.st ra rb) s = .next t ∧ t.reg i = s.rd rb) ∧
    (∀ ra, s.sp.toNat = i.val + 1 →
      ∃ t, exec (.push ra) s = .next t ∧ t.reg i = if ra = 7 then s.sp - 1 else s.rd ra) ∧
    (∀ (img : List Byte) (v : Byte), img.length ≤ 256 → img[i.val]? = some v → (s.load img).reg i = v)

/-- The invariant holds at reset. -/
def Obligations.InvariantHoldsAtReset : Prop := State.reset.Inv

/-- The invariant holds after reset and one load, of any image, an oversized one among them (R156, R158). -/
def Obligations.InvariantHoldsAfterLoad : Prop := ∀ img : List Byte, (State.boot img).Inv

/-- Every step keeps the invariant: memory in canonical form, pc in 0..257 (R16), flags clear or exactly one set (R21), a
fault one that can arise (R66, R91, R92). -/
def Obligations.EveryStepKeepsTheInvariant : Prop := ∀ s t : State, s.Inv → step s = .next t → t.Inv

/-- The state after reset: memory zero but for the stack pointer, 0xF4; pc 0; RUNNING; flags clear (D7, log 3); both streams
empty (D11). Of IR, opa and opb it says nothing: the spec leaves them unspecified (R26, log 2). -/
def Obligations.ResetValues : Prop :=
  (∀ a : Byte, State.reset.rd a = if a = 7 then 0xF4 else 0) ∧ State.reset.sp = 0xF4 ∧
    (∀ i : Fin 8, i.val ≠ 7 → State.reset.reg i = 0) ∧ State.reset.pc = 0 ∧ State.reset.run = .running ∧
    State.reset.fl = 0b000 ∧ State.reset.out = [] ∧ State.reset.diag = []

/-- Load copies an image of at most 256 bytes to address 0 upward, through the registers, and touches no other cell and
neither pc, FL nor RUN (R40; that it is done once, before the first cycle, is D8's, log 9). -/
def Obligations.LoadCopiesTheImage : Prop :=
  ∀ (s : State) (img : List Byte), img.length ≤ 256 →
    (∀ (a : Byte) (v : Byte), img[a.toNat]? = some v → (s.load img).rd a = v) ∧
    (∀ a : Byte, img.length ≤ a.toNat → (s.load img).rd a = s.rd a) ∧
    (8 ≤ img.length → some (s.load img).sp = img[7]?) ∧ (s.load img).pc = s.pc ∧ KeepsRest s (s.load img)

/-- An oversized image is refused: FAULTED(LoadOverflow) with its length, and no cycle ever runs (R41, the spec's decision D8;
that the step answers the outcome fault is log 6). -/
def Obligations.OversizedImageFaults : Prop :=
  ∀ (s : State) (img : List Byte), 256 < img.length →
    (s.load img).run = .faulted (.loadOverflow img.length) ∧ (s.load img).pc = s.pc ∧ (s.load img).fl = s.fl ∧
      KeepsStreams s (s.load img) ∧ step (s.load img) = .fault (.loadOverflow img.length)

/-- The state when the first cycle starts (R158; FL is D7's, the order D8's). -/
def Obligations.StateWhenTheFirstCycleStarts : Prop :=
  ∀ img : List Byte, img.length ≤ 256 →
    (∀ a : Byte, (State.boot img).rd a = (img[a.toNat]?).getD (if a = 7 then 0xF4 else 0)) ∧
    (img.length ≤ 7 → (State.boot img).sp = 0xF4) ∧ (State.boot img).pc = 0 ∧ (State.boot img).fl = 0b000 ∧
    (State.boot img).run = .running ∧ (State.boot img).out = [] ∧ (State.boot img).diag = []

/-! ## System -/

/-- NOP: nothing but pc + 1; and memory that nothing wrote reads as NOPs (R81). -/
def Obligations.NopOnlyAdvances : Prop :=
  (∀ rest : List Byte, decode (0x00 :: rest) = .ok (.nop, rest)) ∧
  (∀ s : State, ∃ t, exec .nop s = .next t ∧ t.pc = s.pc + 1 ∧ KeepsMemory s t ∧ KeepsRest s t) ∧
  ∀ a : Byte, a ≠ 7 → State.reset.rd a = opcodeMap .nop

/-- HLT: RUN <- HALTED and pc + 1 (the advance is the spec's decision D9), nothing else; at 254 and above it faults instead
(R80, R66). -/
def Obligations.HltHaltsAfterAdvancing : Prop :=
  (∀ rest : List Byte, decode (0x01 :: rest) = .ok (.hlt, rest)) ∧
  (∀ s : State, ∃ t, exec .hlt s = .next t ∧ t.run = .halted ∧ t.pc = s.pc + 1 ∧ KeepsMemory s t ∧ t.fl = s.fl ∧
    KeepsStreams s t ∧ KeepsLatches s t) ∧
  ∀ s : State, s.run = .running → 254 ≤ s.pc.toNat → s.opcodeAt = 0x01 →
    ∃ t a, step s = .next t ∧ FaultsWith s t (.outOfBoundsAddress a)

/-- The reserved slots INT and IRET act as invalid opcodes with bit 4 set: a report, and nothing else changes, the pc
included (R72, R73, R82; their bytes 0x52 and 0x13 are G2's, log 7). -/
def Obligations.ReservedSlotsActAsInvalid : Prop :=
  ∀ (ra : Byte) (s : State),
    (∃ t, exec (.int ra) s = .next t ∧ t.diag = s.diag ++ [.invalidInstruction 0x52] ∧ t.pc = s.pc ∧ KeepsMemory s t ∧
      t.fl = s.fl ∧ t.run = s.run ∧ t.out = s.out ∧ KeepsLatches s t) ∧
    (∃ t, exec .iret s = .next t ∧ t.diag = s.diag ++ [.invalidInstruction 0x13] ∧ t.pc = s.pc ∧ KeepsMemory s t ∧
      t.fl = s.fl ∧ t.run = s.run ∧ t.out = s.out ∧ KeepsLatches s t)

/-! ## Load and store -/

/-- LDI: M[ra] <- imm, pc + 3, nothing else, for every operand byte, R7 and the cells 8..255 among them; and a PRN of the
same operand then prints the value (R85). -/
def Obligations.LdiWritesTheImmediate : Prop :=
  ∀ (ra imm : Byte) (s : State),
    decode [0x82, ra, imm] = .ok (.ldi ra imm, []) ∧ WritesAndAdvances (.ldi ra imm) s ra imm 3 ∧
      ∀ t, exec (.ldi ra imm) s = .next t → ∃ u, exec (.prn ra) t = .next u ∧ u.out = s.out ++ [.prn imm]

/-- LD: M[ra] <- M[M[rb]], both reads before the write, pc + 3, nothing else (R86; its opcode's low nibble is G1's). -/
def Obligations.LdCopiesThePointedCell : Prop :=
  ∀ (ra rb : Byte) (s : State),
    decode [0x83, ra, rb] = .ok (.ld ra rb, []) ∧ WritesAndAdvances (.ld ra rb) s ra (s.rd (s.rd rb)) 3

/-- ST: M[M[ra]] <- M[rb], both reads before the write, pc + 3, and no cell but the one pointed to changes (R87; its opcode's
low nibble is G1's). -/
def Obligations.StWritesThePointedCell : Prop :=
  ∀ (ra rb : Byte) (s : State),
    decode [0x84, ra, rb] = .ok (.st ra rb, []) ∧ WritesAndAdvances (.st ra rb) s (s.indirectAddress ra) (s.rd rb) 3 ∧
      s.indirectAddress ra = s.rd ra

/-! ## Stack -/

/-- PUSH with SP not 0: SP <- SP - 1, then M[SP] <- M[ra], the source read after the decrement (R90; the order is the spec's
decision D6). No cell but R7 and the slot changes; with SP = 8 the slot is R7 itself. -/
def Obligations.PushStoresBelowTheStackPointer : Prop :=
  ∀ (ra : Byte) (s : State), s.sp ≠ 0 →
    ∃ t, exec (.push ra) s = .next t ∧ s.pushAddress.toNat = s.sp.toNat - 1 ∧
      t.rd s.pushAddress = (if ra = 7 then s.pushAddress else s.rd ra) ∧
      (s.pushAddress ≠ 7 → t.sp = s.pushAddress) ∧ (∀ x, x ≠ 7 → x ≠ s.pushAddress → t.rd x = s.rd x) ∧
      t.pc = s.pc + 2 ∧ KeepsRest s t

/-- POP with SP below 0xF4: M[ra] <- M[SP], then SP <- SP + 1 with SP read again, so POP R7 leaves the popped byte plus one
(R91; the order is the spec's decision D6). No cell but ra and R7 changes, the slot among them. -/
def Obligations.PopLoadsFromTheStackPointer : Prop :=
  ∀ (ra : Byte) (s : State), s.sp.toNat < 0xF4 →
    (ra ≠ 7 → ∃ t, exec (.pop ra) s = .next t ∧ t.rd ra = s.rd s.sp ∧ t.sp.toNat = s.sp.toNat + 1 ∧
      (∀ x, x ≠ ra → x ≠ 7 → t.rd x = s.rd x) ∧ t.pc = s.pc + 2 ∧ KeepsRest s t) ∧
    (ra = 7 → (s.rd s.sp).toNat < 0xF4 → ∃ t, exec (.pop ra) s = .next t ∧ t.sp.toNat = (s.rd s.sp).toNat + 1 ∧
      (∀ x, x ≠ 7 → t.rd x = s.rd x) ∧ t.pc = s.pc + 2 ∧ KeepsRest s t)

/-- The stack-pointer bounds: PUSH and CALL with SP = 0, POP and RET with SP >= 0xF4, and POP R7 of a byte >= 0xF4 raise
StackBounds before any write (R91, R92, the spec's decision D5). -/
def Obligations.StackBoundsFault : Prop :=
  ∀ (ra : Byte) (s : State),
    (s.sp = 0 → (∃ t, exec (.push ra) s = .next t ∧ FaultsWith s t (.stackBounds 0)) ∧
      ∃ t, exec (.call ra) s = .next t ∧ FaultsWith s t (.stackBounds 0)) ∧
    (0xF4 ≤ s.sp.toNat → (∃ t, exec (.pop ra) s = .next t ∧ FaultsWith s t (.stackBounds s.sp)) ∧
      ∃ t, exec .ret s = .next t ∧ FaultsWith s t (.stackBounds s.sp)) ∧
    (s.sp.toNat < 0xF4 → 0xF4 ≤ (s.rd s.sp).toNat →
      ∃ t, exec (.pop 7) s = .next t ∧ FaultsWith s t (.stackBounds (s.rd s.sp)))

/-- PUSH r then POP r' leaves M[r'] equal to the pre-push M[r] and SP at its pre-push value, for r and r' not 7 and a
pre-push SP in 1..0xF4 other than 8 (R94, the direction that the side conditions suffice). -/
def Obligations.PushThenPopIsBalanced : Prop :=
  ∀ (r r' : Byte) (s : State), r ≠ 7 → r' ≠ 7 → 1 ≤ s.sp.toNat → s.sp.toNat ≤ 0xF4 → s.sp ≠ 8 →
    ∃ t u, exec (.push r) s = .next t ∧ exec (.pop r') t = .next u ∧ u.rd r' = s.rd r ∧ u.sp = s.sp

/-! ## Control transfer -/

/-- JMP: pc <- M[ra], nothing else, for every operand byte and every target (R95, R99; its opcode's low nibble is G1's). -/
def Obligations.JmpGoesToTheCellsContent : Prop :=
  ∀ (ra : Byte) (s : State),
    decode [0x54, ra] = .ok (.jmp ra, []) ∧
      ∃ t, exec (.jmp ra) s = .next t ∧ t.pc.toNat = (s.rd ra).toNat ∧ KeepsMemory s t ∧ KeepsRest s t

/-- CALL with SP not 0, at a pc fetch allows: SP <- SP - 1, the return address pc + 2 into the slot, then the target read
after the push (R96; the order is the spec's decision D6). -/
def Obligations.CallPushesTheReturnAddress : Prop :=
  ∀ (ra : Byte) (s : State), s.sp ≠ 0 → s.canFetch →
    ∃ t, exec (.call ra) s = .next t ∧ s.pushAddress.toNat = s.sp.toNat - 1 ∧
      (t.rd s.pushAddress).toNat = s.pc.toNat + 2 ∧ (s.pushAddress ≠ 7 → t.sp = s.pushAddress) ∧
      (∀ x, x ≠ 7 → x ≠ s.pushAddress → t.rd x = s.rd x) ∧ t.pc.toNat = (t.rd ra).toNat ∧ KeepsRest s t

/-- RET with SP below 0xF4: pc <- M[SP], then SP <- SP + 1; no other cell changes (R97; its opcode's low nibble is G1's). -/
def Obligations.RetPopsThePc : Prop :=
  ∀ s : State, s.sp.toNat < 0xF4 →
    ∃ t, exec .ret s = .next t ∧ t.pc.toNat = (s.rd s.sp).toNat ∧ t.sp.toNat = s.sp.toNat + 1 ∧
      (∀ x, x ≠ 7 → t.rd x = s.rd x) ∧ KeepsRest s t

/-- The call and return round trip: when the subroutine leaves SP and the slot as it found them, RET restores the pc to the
address after the CALL and SP to its pre-call value, for a pre-call SP in 1..0xF4 other than 8 (R98). -/
def Obligations.CallThenRetReturns : Prop :=
  ∀ (ra : Byte) (s : State), s.canFetch → 1 ≤ s.sp.toNat → s.sp.toNat ≤ 0xF4 → s.sp ≠ 8 →
    ∃ t, exec (.call ra) s = .next t ∧ ∀ u : State, u.sp = t.sp → u.rd u.sp = t.rd t.sp →
      ∃ w, exec .ret u = .next w ∧ w.pc.toNat = s.pc.toNat + 2 ∧ w.sp = s.sp

/-- The six conditional jumps: their conditions on the bits of FL as they stand, what those mean after a CMP, and that with
FL = 0b000 only JNE is taken; the jumps change neither FL nor memory (R100). -/
def Obligations.ConditionalJumpsTestTheFlags : Prop :=
  ∀ (ra : Byte) (s : State),
    (JumpsWhen (.jeq ra) ra s (s.flE = true) ∧ JumpsWhen (.jne ra) ra s (s.flE = false) ∧
      JumpsWhen (.jgt ra) ra s (s.flG = true) ∧ JumpsWhen (.jge ra) ra s (s.flG = true ∨ s.flE = true) ∧
      JumpsWhen (.jlt ra) ra s (s.flL = true) ∧ JumpsWhen (.jle ra) ra s (s.flL = true ∨ s.flE = true)) ∧
    (∀ a b : Byte, ∃ t, exec (.cmp a b) s = .next t ∧
      JumpsWhen (.jeq ra) ra t ((s.rd a).toNat = (s.rd b).toNat) ∧
      JumpsWhen (.jne ra) ra t ((s.rd a).toNat ≠ (s.rd b).toNat) ∧
      JumpsWhen (.jgt ra) ra t ((s.rd a).toNat > (s.rd b).toNat) ∧
      JumpsWhen (.jge ra) ra t ((s.rd a).toNat ≥ (s.rd b).toNat) ∧
      JumpsWhen (.jlt ra) ra t ((s.rd a).toNat < (s.rd b).toNat) ∧
      JumpsWhen (.jle ra) ra t ((s.rd a).toNat ≤ (s.rd b).toNat)) ∧
    (s.fl = 0b000 → JumpsWhen (.jne ra) ra s True ∧ JumpsWhen (.jeq ra) ra s False ∧ JumpsWhen (.jgt ra) ra s False ∧
      JumpsWhen (.jge ra) ra s False ∧ JumpsWhen (.jlt ra) ra s False ∧ JumpsWhen (.jle ra) ra s False)

/-! ## Output -/

/-- PRN emits OUT(PRN, M[ra]); pc + 2, nothing else (R110). -/
def Obligations.PrnEmitsTheCellsValue : Prop :=
  ∀ (ra : Byte) (s : State),
    decode [0x47, ra] = .ok (.prn ra, []) ∧
      ∃ t, exec (.prn ra) s = .next t ∧ t.out = s.out ++ [.prn (s.rd ra)] ∧ t.diag = s.diag ∧ t.pc = s.pc + 2 ∧
        KeepsMemory s t ∧ t.fl = s.fl ∧ t.run = s.run ∧ KeepsLatches s t

/-- PRA emits OUT(PRA, M[ra]), every byte unfiltered; pc + 2, nothing else (R111; its opcode's low nibble is G1's). -/
def Obligations.PraEmitsTheCellsValue : Prop :=
  ∀ (ra : Byte) (s : State),
    decode [0x48, ra] = .ok (.pra ra, []) ∧
      ∃ t, exec (.pra ra) s = .next t ∧ t.out = s.out ++ [.pra (s.rd ra)] ∧ t.diag = s.diag ∧ t.pc = s.pc + 2 ∧
        KeepsMemory s t ∧ t.fl = s.fl ∧ t.run = s.run ∧ KeepsLatches s t

/-- The host's rendering: PRN as the unsigned decimal without leading zeros, PRA as the one character of a code point below
128, each followed by the line separator (R112; separator and the other code points are open, D19, log 10). -/
def Obligations.RenderingOfOutputEvents : Prop :=
  ∀ v : Byte,
    (OutEvent.prn v).render = decimal v ++ Config.lineSeparator ∧
    (decimal v).foldl (fun n c => n * 10 + (c.toNat - 48)) 0 = v.toNat ∧
    (∀ c ∈ decimal v, 48 ≤ c.toNat ∧ c.toNat ≤ 57) ∧ (decimal v ≠ [] ∧ (1 < (decimal v).length →
      (decimal v).head? ≠ some '0')) ∧
    (v.toNat < 128 → ∃ c : Char, c.toNat = v.toNat ∧ (OutEvent.pra v).render = c :: Config.lineSeparator)

/-! ## ALU -/

/-- ADD, SUB and MUL write the exact result modulo 256 to M[ra], and nothing else but the pc changes: no flag (R116, R117,
R118, R122; modulo 256 is the spec's decision D1). -/
def Obligations.AddSubMulWrapModulo256 : Prop :=
  ∀ (ra rb : Byte) (s : State),
    (∃ v, WritesAndAdvances (.add ra rb) s ra v 3 ∧ v.toNat = ((s.rd ra).toNat + (s.rd rb).toNat) % 256) ∧
    (∃ v, WritesAndAdvances (.sub ra rb) s ra v 3 ∧ v.toNat = ((s.rd ra).toNat + 256 - (s.rd rb).toNat) % 256) ∧
    (∃ v, WritesAndAdvances (.mul ra rb) s ra v 3 ∧ v.toNat = ((s.rd ra).toNat * (s.rd rb).toNat) % 256)

/-- INC and DEC step M[ra] by one modulo 256, with pc + 2 and no flag (R132, R133; modulo 256 is the spec's decision D1). -/
def Obligations.IncDecWrapModulo256 : Prop :=
  ∀ (ra : Byte) (s : State),
    (∃ v, WritesAndAdvances (.inc ra) s ra v 2 ∧ v.toNat = ((s.rd ra).toNat + 1) % 256) ∧
    (∃ v, WritesAndAdvances (.dec ra) s ra v 2 ∧ v.toNat = ((s.rd ra).toNat + 255) % 256)

/-- DIV and MOD by a divisor that is not 0: the floor of the quotient and the remainder, and nothing else but the pc changes
(R119, R120). -/
def Obligations.DivModGiveQuotientAndRemainder : Prop :=
  ∀ (ra rb : Byte) (s : State), s.rd rb ≠ 0 →
    ∃ q r, WritesAndAdvances (.div ra rb) s ra q 3 ∧ WritesAndAdvances (.mod ra rb) s ra r 3 ∧
      (s.rd ra).toNat = (s.rd rb).toNat * q.toNat + r.toNat ∧ r.toNat < (s.rd rb).toNat

/-- DIV and MOD by zero: a report with the pc, HALTED, pc + 3, no cell and no flag written (R121, R137; the payload and the
unwritten destination are the spec's decision D16, the advance D9). -/
def Obligations.DivModByZeroReportAndHalt : Prop :=
  ∀ (ra rb : Byte) (s : State), s.rd rb = 0 →
    (∃ t, exec (.div ra rb) s = .next t ∧ t.diag = s.diag ++ [.divideByZero s.pc] ∧ t.run = .halted ∧ KeepsMemory s t ∧
      t.fl = s.fl ∧ t.out = s.out ∧ t.pc = s.pc + 3 ∧ KeepsLatches s t) ∧
    (∃ t, exec (.mod ra rb) s = .next t ∧ t.diag = s.diag ++ [.moduloByZero s.pc] ∧ t.run = .halted ∧ KeepsMemory s t ∧
      t.fl = s.fl ∧ t.out = s.out ∧ t.pc = s.pc + 3 ∧ KeepsLatches s t)

/-- AND, OR, XOR and NOT bit by bit, and NOT as 255 - M[ra]; no flag (R124 to R127; their opcodes' low nibbles are G1's). -/
def Obligations.LogicWorksBitByBit : Prop :=
  ∀ (ra rb : Byte) (s : State),
    (∃ v, WritesAndAdvances (.and ra rb) s ra v 3 ∧
      ∀ i < 8, v.getLsbD i = ((s.rd ra).getLsbD i && (s.rd rb).getLsbD i)) ∧
    (∃ v, WritesAndAdvances (.or ra rb) s ra v 3 ∧
      ∀ i < 8, v.getLsbD i = ((s.rd ra).getLsbD i || (s.rd rb).getLsbD i)) ∧
    (∃ v, WritesAndAdvances (.xor ra rb) s ra v 3 ∧
      ∀ i < 8, v.getLsbD i = ((s.rd ra).getLsbD i ^^ (s.rd rb).getLsbD i)) ∧
    (∃ v, WritesAndAdvances (.not ra) s ra v 2 ∧ v.toNat = 255 - (s.rd ra).toNat ∧
      ∀ i < 8, v.getLsbD i = !(s.rd ra).getLsbD i)

/-- SHL and SHR shift by the value itself and ignore operand b: SHL is (x * 2^x) modulo 256, 0 from x = 8 on, and SHR is 0 for
every x (R128, R129, R130; modulo 256 is the spec's decision D1). -/
def Obligations.ShiftsUseTheirOwnValue : Prop :=
  ∀ (ra rb : Byte) (s : State),
    (∃ v, WritesAndAdvances (.shl ra rb) s ra v 3 ∧ v.toNat = (s.rd ra).toNat * 2 ^ (s.rd ra).toNat % 256 ∧
      (8 ≤ (s.rd ra).toNat → v = 0)) ∧
    WritesAndAdvances (.shr ra rb) s ra 0 3 ∧ (s.rd ra).toNat / 2 ^ (s.rd ra).toNat = 0

/-- CMP recomputes all three flags from the unsigned order, exactly one set, and writes nothing else (R131; unsigned is the
spec's decision D15). -/
def Obligations.CmpSetsExactlyOneFlag : Prop :=
  ∀ (ra rb : Byte) (s : State),
    ∃ t, exec (.cmp ra rb) s = .next t ∧
      ((s.rd ra).toNat = (s.rd rb).toNat → t.fl = 0b001) ∧ ((s.rd ra).toNat > (s.rd rb).toNat → t.fl = 0b010) ∧
      ((s.rd ra).toNat < (s.rd rb).toNat → t.fl = 0b100) ∧ t.flByte.toNat = t.fl.toNat ∧ KeepsMemory s t ∧
      t.pc = s.pc + 3 ∧ t.run = s.run ∧ KeepsStreams s t ∧ KeepsLatches s t

/-- The ALU is a pure function of the operation, M[ra] and M[rb], written back to M[ra]: for each of the 13 there is one
function of the two bytes that gives the new M[ra] in every state, no other cell and no flag is written; and what CMP
writes to FL is such a function, with every cell unchanged (R115). -/
def Obligations.AluIsAPureFunctionOfItsOperands : Prop :=
  (∀ i ∈ [Instr.add, .sub, .mul, .div, .mod, .and, .or, .xor, .shl, .shr, fun ra _ => .not ra, fun ra _ => .inc ra,
      fun ra _ => .dec ra],
    ∃ f : Byte → Byte → Byte, ∀ (ra rb : Byte) (s : State), ∃ t, exec (i ra rb) s = .next t ∧
      WritesOnly s t ra (f (s.rd ra) (s.rd rb)) ∧ t.fl = s.fl) ∧
  ∃ f : Byte → Byte → BitVec 3, ∀ (ra rb : Byte) (s : State), ∃ t, exec (.cmp ra rb) s = .next t ∧ KeepsMemory s t ∧
    t.fl = f (s.rd ra) (s.rd rb)
end

