-- ==== Sys2Proof/Laws/Decode.lean ====
section
/-! SUPPORT. The laws of the table look-up and of the syntax. -/

namespace Sys2Proof

theorem Mnemonic.mem_all (m : Mnemonic) : m ∈ Mnemonic.all := by cases m <;> decide

/-- A look-up that succeeds found the row of that byte. -/
theorem opcode_of_lookup {map : OpcodeMap} {ir : Byte} {m : Mnemonic} (h : lookup map ir = some m) : map m = ir := by
  simpa using List.find?_some h

/-- A look-up fails exactly when no row has the byte. -/
theorem lookup_eq_none {map : OpcodeMap} {ir : Byte} : lookup map ir = none ↔ ∀ m, map m ≠ ir := by
  simp [lookup, Mnemonic.mem_all]

/-- In a map whose bytes are distinct, each byte looks up its own mnemonic. -/
theorem lookup_opcode {map : OpcodeMap} (h : map.distinct = true) (m : Mnemonic) : lookup map (map m) = some m := by
  cases hl : lookup map (map m) with
  | none => exact absurd rfl (lookup_eq_none.1 hl m)
  | some n =>
    have hn := opcode_of_lookup hl
    simp only [OpcodeMap.distinct, List.all_eq_true, Bool.or_eq_true, beq_iff_eq, bne_iff_ne] at h
    rcases h n n.mem_all m m.mem_all with rfl | hne
    · rfl
    · exact absurd hn hne

theorem opcodeMap_wellFormed : opcodeMap.wellFormed = true := by decide

theorem opcodeMap_distinct : opcodeMap.distinct = true := by decide

@[simp] theorem mnemonic_withOperands (m : Mnemonic) (a b : Byte) : (m.withOperands a b).mnemonic = m := by
  cases m <;> rfl

/-- Bits 7..6 of an instruction's opcode count its operand bytes (R51). -/
theorem operandCount_opcodeMap (i : Instr) : operandCount (opcodeMap i.mnemonic) = i.operands.length := by
  cases i <;> simp [Instr.mnemonic, Instr.operands, opcodeMap, operandCount]

end Sys2Proof
end

