-- ==== Sys2Proof/Laws/Memory.lean ====
section
/-! SUPPORT. The laws of memory: read after write, and that every operation keeps the canonical form. -/

namespace Sys2Proof.Machine

theorem Memory.read_nil (a : Nat) : Memory.read [] a = Memory.background a := rfl

theorem Memory.read_cons (k : Nat) (w : Byte) (m : Memory) (a : Nat) :
    Memory.read ((k, w) :: m) a = if k = a then w else Memory.read m a := rfl

theorem Memory.erase_cons (k : Nat) (w : Byte) (m : Memory) (a : Nat) :
    Memory.erase ((k, w) :: m) a = if k = a then Memory.erase m a else (k, w) :: Memory.erase m a := by
  by_cases h : k = a <;> simp [Memory.erase, h]

theorem Memory.mem_erase {m : Memory} {a : Nat} {c : Host.Cell} : c ∈ m.erase a ↔ c ∈ m ∧ c.1 ≠ a := by
  simp [Memory.erase]

/-- An erased address reads as its reset contents; every other one as before. -/
theorem Memory.read_erase (m : Memory) (a b : Nat) :
    (m.erase a).read b = if b = a then Memory.background a else m.read b := by
  induction m with
  | nil => by_cases h : b = a <;> simp [Memory.erase, Memory.read_nil, h]
  | cons c m ih =>
    obtain ⟨k, w⟩ := c
    rw [Memory.erase_cons]
    by_cases hk : k = a
    · subst hk
      by_cases hb : b = k
      · subst hb; simp [ih]
      · simp [ih, hb, Memory.read_cons, Ne.symm hb]
    · by_cases hb : b = a
      · subst hb; simp [ih, Memory.read_cons, hk]
      · simp [ih, Memory.read_cons, hk, hb]

theorem Memory.mem_place {m : Memory} {a : Nat} {v : Byte} {c : Host.Cell} :
    c ∈ m.place a v ↔ c = (a, v) ∨ c ∈ m := by
  induction m with
  | nil => simp [Memory.place]
  | cons d m ih =>
    obtain ⟨k, w⟩ := d
    simp only [Memory.place]
    split <;> simp [ih, or_left_comm]

/-- A placed pair is read back where no entry of its address was listed; every other address reads as before. -/
theorem Memory.read_place (m : Memory) (a b : Nat) (v : Byte) (h : ∀ c ∈ m, c.1 ≠ a) :
    (m.place a v).read b = if b = a then v else m.read b := by
  induction m with
  | nil => simp [Memory.place, Memory.read_cons, eq_comm]
  | cons d m ih =>
    obtain ⟨k, w⟩ := d
    have hk : k ≠ a := h (k, w) (by simp)
    have ih := ih fun c hc => h c (by simp [hc])
    simp only [Memory.place]
    split
    · simp [Memory.read_cons, eq_comm]
    · by_cases hb : b = a
      · subst hb; simp [Memory.read_cons, ih, hk]
      · simp [Memory.read_cons, ih, hb]

/-- Read after write: the written byte at the written address, every other address as before (R30). -/
theorem Memory.read_write (m : Memory) (a b : Nat) (v : Byte) :
    (m.write a v).read b = if b = a then v else m.read b := by
  unfold Memory.write
  split
  · next hv => rw [Memory.read_erase, hv]
  · rw [Memory.read_place _ _ _ _ (fun c hc => (Memory.mem_erase.1 hc).2), Memory.read_erase]
    by_cases hb : b = a <;> simp [hb]

theorem Memory.read_write_same (m : Memory) (a : Nat) (v : Byte) : (m.write a v).read a = v := by
  simp [Memory.read_write]

theorem Memory.read_write_other (m : Memory) {a b : Nat} (v : Byte) (h : b ≠ a) :
    (m.write a v).read b = m.read b := by
  simp [Memory.read_write, h]

/-! ## The canonical form -/

theorem Memory.wf_nil : Memory.wf [] := by simp [Memory.wf]

theorem Memory.wf_erase {m : Memory} (h : m.wf) (a : Nat) : (m.erase a).wf :=
  ⟨h.1.filter _, fun c hc => h.2 c (Memory.mem_erase.1 hc).1⟩

theorem Memory.pairwise_place {m : Memory} {a : Nat} {v : Byte} (h : m.Pairwise fun c d => c.1 < d.1)
    (ha : ∀ c ∈ m, c.1 ≠ a) : (m.place a v).Pairwise fun c d => c.1 < d.1 := by
  induction m with
  | nil => simp [Memory.place]
  | cons d m ih =>
    obtain ⟨k, w⟩ := d
    have hk : k ≠ a := ha (k, w) (by simp)
    rw [List.pairwise_cons] at h
    simp only [Memory.place]
    split
    · next hlt =>
      refine List.pairwise_cons.2 ⟨fun c hc => ?_, List.pairwise_cons.2 h⟩
      rcases List.mem_cons.1 hc with rfl | hc
      · exact hlt
      · exact hlt.trans (h.1 c hc)
    · refine List.pairwise_cons.2 ⟨fun c hc => ?_, ih h.2 fun c hc => ha c (by simp [hc])⟩
      rcases Memory.mem_place.1 hc with rfl | hc
      · show k < a
        omega
      · exact h.1 c hc

theorem Memory.wf_write {m : Memory} (h : m.wf) {a : Nat} (ha : a < Config.memSize) (v : Byte) :
    (m.write a v).wf := by
  unfold Memory.write
  split
  · exact Memory.wf_erase h a
  · next hv =>
    have he := Memory.wf_erase h a
    refine ⟨Memory.pairwise_place he.1 fun c hc => (Memory.mem_erase.1 hc).2, fun c hc => ?_⟩
    rcases Memory.mem_place.1 hc with rfl | hc
    · exact ⟨ha, hv⟩
    · exact he.2 c hc

/-- Copying in an image that fits keeps the canonical form. -/
theorem Memory.wf_copyIn {m : Memory} (h : m.wf) (img : List Byte) {a : Nat}
    (ha : a + img.length ≤ Config.memSize) : (m.copyIn a img).wf := by
  induction img generalizing m a with
  | nil => exact h
  | cons b img ih =>
    have ha' : a + 1 + img.length ≤ Config.memSize := by simp only [List.length_cons] at ha; omega
    exact ih (Memory.wf_write h (by simp only [List.length_cons] at ha; omega) b) ha'

/-- What copying in an image leaves at each address (R40). -/
theorem Memory.read_copyIn (m : Memory) (a : Nat) (img : List Byte) (b : Nat) :
    (m.copyIn a img).read b = if a ≤ b ∧ b < a + img.length then img.getD (b - a) 0 else m.read b := by
  induction img generalizing m a with
  | nil => simp [Memory.copyIn]
  | cons v img ih =>
    simp only [Memory.copyIn, ih, Memory.read_write, List.length_cons]
    by_cases hb : b = a
    · subst hb; simp
    · by_cases hlt : a + 1 ≤ b ∧ b < a + 1 + img.length
      · have h1 : a ≤ b ∧ b < a + (img.length + 1) := by omega
        have h2 : b - a = (b - (a + 1)) + 1 := by omega
        simp [hlt, h1, h2]
      · have h1 : ¬(a ≤ b ∧ b < a + (img.length + 1)) := by omega
        rw [if_neg hlt, if_neg h1, if_neg hb]

theorem Memory.wf_ofCells (f : Nat → Byte) : (Memory.ofCells f).wf := by
  refine ⟨List.Pairwise.filter _ (List.pairwise_map.2 ?_), fun c hc => ?_⟩
  · exact List.pairwise_lt_range
  · simp only [Memory.ofCells, List.mem_filter, List.mem_map, List.mem_range] at hc
    obtain ⟨⟨a, ha, rfl⟩, hv⟩ := hc
    exact ⟨ha, by simpa using hv⟩

end Sys2Proof.Machine
end

