-- ==== Sys2Proof/Laws/State.lean ====
section
/-! SUPPORT. One lemma per field per update of State, true by rfl, and what each update does to the cells a state reads. -/

namespace Sys2Proof.Machine

variable (s : State)

/-! ## Fields -/

@[simp] theorem State.wr_mem (a v : Byte) : (s.wr a v).mem = s.mem.write a.toNat v := rfl
@[simp] theorem State.wr_pc (a v : Byte) : (s.wr a v).pc = s.pc := rfl
@[simp] theorem State.wr_ir (a v : Byte) : (s.wr a v).ir = s.ir := rfl
@[simp] theorem State.wr_opa (a v : Byte) : (s.wr a v).opa = s.opa := rfl
@[simp] theorem State.wr_opb (a v : Byte) : (s.wr a v).opb = s.opb := rfl
@[simp] theorem State.wr_fl (a v : Byte) : (s.wr a v).fl = s.fl := rfl
@[simp] theorem State.wr_run (a v : Byte) : (s.wr a v).run = s.run := rfl
@[simp] theorem State.wr_out (a v : Byte) : (s.wr a v).out = s.out := rfl
@[simp] theorem State.wr_diag (a v : Byte) : (s.wr a v).diag = s.diag := rfl
@[simp] theorem State.wr_freeCount (a v : Byte) : (s.wr a v).freeCount = s.freeCount := rfl

@[simp] theorem State.setPc_mem (p : PcWord) : (s.setPc p).mem = s.mem := rfl
@[simp] theorem State.setPc_pc (p : PcWord) : (s.setPc p).pc = p := rfl
@[simp] theorem State.setPc_ir (p : PcWord) : (s.setPc p).ir = s.ir := rfl
@[simp] theorem State.setPc_opa (p : PcWord) : (s.setPc p).opa = s.opa := rfl
@[simp] theorem State.setPc_opb (p : PcWord) : (s.setPc p).opb = s.opb := rfl
@[simp] theorem State.setPc_fl (p : PcWord) : (s.setPc p).fl = s.fl := rfl
@[simp] theorem State.setPc_run (p : PcWord) : (s.setPc p).run = s.run := rfl
@[simp] theorem State.setPc_out (p : PcWord) : (s.setPc p).out = s.out := rfl
@[simp] theorem State.setPc_diag (p : PcWord) : (s.setPc p).diag = s.diag := rfl
@[simp] theorem State.setPc_freeCount (p : PcWord) : (s.setPc p).freeCount = s.freeCount := rfl

@[simp] theorem State.setFl_mem (f : BitVec 3) : (s.setFl f).mem = s.mem := rfl
@[simp] theorem State.setFl_pc (f : BitVec 3) : (s.setFl f).pc = s.pc := rfl
@[simp] theorem State.setFl_ir (f : BitVec 3) : (s.setFl f).ir = s.ir := rfl
@[simp] theorem State.setFl_opa (f : BitVec 3) : (s.setFl f).opa = s.opa := rfl
@[simp] theorem State.setFl_opb (f : BitVec 3) : (s.setFl f).opb = s.opb := rfl
@[simp] theorem State.setFl_fl (f : BitVec 3) : (s.setFl f).fl = f := rfl
@[simp] theorem State.setFl_run (f : BitVec 3) : (s.setFl f).run = s.run := rfl
@[simp] theorem State.setFl_out (f : BitVec 3) : (s.setFl f).out = s.out := rfl
@[simp] theorem State.setFl_diag (f : BitVec 3) : (s.setFl f).diag = s.diag := rfl
@[simp] theorem State.setFl_freeCount (f : BitVec 3) : (s.setFl f).freeCount = s.freeCount := rfl

@[simp] theorem State.halt_mem : (s.halt).mem = s.mem := rfl
@[simp] theorem State.halt_pc : (s.halt).pc = s.pc := rfl
@[simp] theorem State.halt_ir : (s.halt).ir = s.ir := rfl
@[simp] theorem State.halt_opa : (s.halt).opa = s.opa := rfl
@[simp] theorem State.halt_opb : (s.halt).opb = s.opb := rfl
@[simp] theorem State.halt_fl : (s.halt).fl = s.fl := rfl
@[simp] theorem State.halt_run : (s.halt).run = .halted := rfl
@[simp] theorem State.halt_out : (s.halt).out = s.out := rfl
@[simp] theorem State.halt_diag : (s.halt).diag = s.diag := rfl
@[simp] theorem State.halt_freeCount : (s.halt).freeCount = s.freeCount := rfl

@[simp] theorem State.emitOut_mem (e : OutEvent) : (s.emitOut e).mem = s.mem := rfl
@[simp] theorem State.emitOut_pc (e : OutEvent) : (s.emitOut e).pc = s.pc := rfl
@[simp] theorem State.emitOut_ir (e : OutEvent) : (s.emitOut e).ir = s.ir := rfl
@[simp] theorem State.emitOut_opa (e : OutEvent) : (s.emitOut e).opa = s.opa := rfl
@[simp] theorem State.emitOut_opb (e : OutEvent) : (s.emitOut e).opb = s.opb := rfl
@[simp] theorem State.emitOut_fl (e : OutEvent) : (s.emitOut e).fl = s.fl := rfl
@[simp] theorem State.emitOut_run (e : OutEvent) : (s.emitOut e).run = s.run := rfl
@[simp] theorem State.emitOut_out (e : OutEvent) : (s.emitOut e).out = s.out ++ [e] := rfl
@[simp] theorem State.emitOut_diag (e : OutEvent) : (s.emitOut e).diag = s.diag := rfl
@[simp] theorem State.emitOut_freeCount (e : OutEvent) : (s.emitOut e).freeCount = s.freeCount := rfl

@[simp] theorem State.emitDiag_mem (e : DiagEvent) : (s.emitDiag e).mem = s.mem := rfl
@[simp] theorem State.emitDiag_pc (e : DiagEvent) : (s.emitDiag e).pc = s.pc := rfl
@[simp] theorem State.emitDiag_ir (e : DiagEvent) : (s.emitDiag e).ir = s.ir := rfl
@[simp] theorem State.emitDiag_opa (e : DiagEvent) : (s.emitDiag e).opa = s.opa := rfl
@[simp] theorem State.emitDiag_opb (e : DiagEvent) : (s.emitDiag e).opb = s.opb := rfl
@[simp] theorem State.emitDiag_fl (e : DiagEvent) : (s.emitDiag e).fl = s.fl := rfl
@[simp] theorem State.emitDiag_run (e : DiagEvent) : (s.emitDiag e).run = s.run := rfl
@[simp] theorem State.emitDiag_out (e : DiagEvent) : (s.emitDiag e).out = s.out := rfl
@[simp] theorem State.emitDiag_diag (e : DiagEvent) : (s.emitDiag e).diag = s.diag ++ [e] := rfl
@[simp] theorem State.emitDiag_freeCount (e : DiagEvent) : (s.emitDiag e).freeCount = s.freeCount := rfl

@[simp] theorem State.raise_mem (c : Fault) : (s.raise c).mem = s.mem := rfl
@[simp] theorem State.raise_pc (c : Fault) : (s.raise c).pc = s.pc := rfl
@[simp] theorem State.raise_ir (c : Fault) : (s.raise c).ir = Config.freeByte s.freeCount := rfl
@[simp] theorem State.raise_opa (c : Fault) : (s.raise c).opa = Config.freeByte (s.freeCount + 1) := rfl
@[simp] theorem State.raise_opb (c : Fault) : (s.raise c).opb = Config.freeByte (s.freeCount + 2) := rfl
@[simp] theorem State.raise_fl (c : Fault) : (s.raise c).fl = s.fl := rfl
@[simp] theorem State.raise_run (c : Fault) : (s.raise c).run = .faulted c := rfl
@[simp] theorem State.raise_out (c : Fault) : (s.raise c).out = s.out := rfl
@[simp] theorem State.raise_diag (c : Fault) : (s.raise c).diag = s.diag := rfl
@[simp] theorem State.raise_freeCount (c : Fault) : (s.raise c).freeCount = s.freeCount + 3 := rfl

@[simp] theorem State.advance_mem (ir : Byte) : (s.advance ir).mem = s.mem := rfl
@[simp] theorem State.advance_pc (ir : Byte) : (s.advance ir).pc = if setsPc ir then s.pc else s.pc + BitVec.ofNat 9 (operandCount ir + 1) := rfl
@[simp] theorem State.advance_ir (ir : Byte) : (s.advance ir).ir = s.ir := rfl
@[simp] theorem State.advance_opa (ir : Byte) : (s.advance ir).opa = s.opa := rfl
@[simp] theorem State.advance_opb (ir : Byte) : (s.advance ir).opb = s.opb := rfl
@[simp] theorem State.advance_fl (ir : Byte) : (s.advance ir).fl = s.fl := rfl
@[simp] theorem State.advance_run (ir : Byte) : (s.advance ir).run = s.run := rfl
@[simp] theorem State.advance_out (ir : Byte) : (s.advance ir).out = s.out := rfl
@[simp] theorem State.advance_diag (ir : Byte) : (s.advance ir).diag = s.diag := rfl
@[simp] theorem State.advance_freeCount (ir : Byte) : (s.advance ir).freeCount = s.freeCount := rfl

@[simp] theorem State.dropTop_mem : (s.dropTop).mem = s.mem.write Config.spReg.toNat (s.sp + 1) := rfl
@[simp] theorem State.dropTop_pc : (s.dropTop).pc = s.pc := rfl
@[simp] theorem State.dropTop_ir : (s.dropTop).ir = s.ir := rfl
@[simp] theorem State.dropTop_opa : (s.dropTop).opa = s.opa := rfl
@[simp] theorem State.dropTop_opb : (s.dropTop).opb = s.opb := rfl
@[simp] theorem State.dropTop_fl : (s.dropTop).fl = s.fl := rfl
@[simp] theorem State.dropTop_run : (s.dropTop).run = s.run := rfl
@[simp] theorem State.dropTop_out : (s.dropTop).out = s.out := rfl
@[simp] theorem State.dropTop_diag : (s.dropTop).diag = s.diag := rfl
@[simp] theorem State.dropTop_freeCount : (s.dropTop).freeCount = s.freeCount := rfl

/-! ## Cells -/

@[simp] theorem State.rd_setPc (p : PcWord) (x : Byte) : (s.setPc p).rd x = s.rd x := rfl
@[simp] theorem State.sp_setPc (p : PcWord) : (s.setPc p).sp = s.sp := rfl
@[simp] theorem State.rd_setFl (f : BitVec 3) (x : Byte) : (s.setFl f).rd x = s.rd x := rfl
@[simp] theorem State.sp_setFl (f : BitVec 3) : (s.setFl f).sp = s.sp := rfl
@[simp] theorem State.rd_halt (x : Byte) : (s.halt).rd x = s.rd x := rfl
@[simp] theorem State.sp_halt : (s.halt).sp = s.sp := rfl
@[simp] theorem State.rd_emitOut (e : OutEvent) (x : Byte) : (s.emitOut e).rd x = s.rd x := rfl
@[simp] theorem State.sp_emitOut (e : OutEvent) : (s.emitOut e).sp = s.sp := rfl
@[simp] theorem State.rd_emitDiag (e : DiagEvent) (x : Byte) : (s.emitDiag e).rd x = s.rd x := rfl
@[simp] theorem State.sp_emitDiag (e : DiagEvent) : (s.emitDiag e).sp = s.sp := rfl
@[simp] theorem State.rd_raise (c : Fault) (x : Byte) : (s.raise c).rd x = s.rd x := rfl
@[simp] theorem State.sp_raise (c : Fault) : (s.raise c).sp = s.sp := rfl
@[simp] theorem State.rd_advance (ir : Byte) (x : Byte) : (s.advance ir).rd x = s.rd x := rfl
@[simp] theorem State.sp_advance (ir : Byte) : (s.advance ir).sp = s.sp := rfl

/-- Read after write at byte addresses (R30). -/
@[simp] theorem State.rd_wr (a v x : Byte) : (s.wr a v).rd x = if x = a then v else s.rd x := by
  simp only [State.rd, State.wr, Memory.read_write, BitVec.toNat_inj]

theorem State.sp_eq : s.sp = s.rd 7 := rfl

/-- SP is an ordinary cell: a write of M[7] is a write of SP (R12, R13). -/
@[simp] theorem State.sp_wr (a v : Byte) : (s.wr a v).sp = if Config.spReg = a then v else s.sp := by
  simp only [State.sp, State.rd_wr]

@[simp] theorem State.rd_dropTop (x : Byte) : s.dropTop.rd x = if x = Config.spReg then s.sp + 1 else s.rd x :=
  s.rd_wr _ _ _

@[simp] theorem State.sp_dropTop : s.dropTop.sp = s.sp + 1 := by simp [State.sp]

/-- A byte address never leaves the memory, so a write keeps the canonical form (R31). -/
theorem State.wf_wr {s : State} (h : s.mem.wf) (a v : Byte) : (s.wr a v).mem.wf :=
  Memory.wf_write h (by have := a.isLt; simp [Config.memSize]; omega) v

/-- Two states with the same fields are the same. -/
theorem State.ext_fields {s t : State} (mem : s.mem = t.mem) (pc : s.pc = t.pc) (ir : s.ir = t.ir) (opa : s.opa = t.opa)
    (opb : s.opb = t.opb) (fl : s.fl = t.fl) (run : s.run = t.run) (out : s.out = t.out) (diag : s.diag = t.diag)
    (freeCount : s.freeCount = t.freeCount) : s = t := by
  cases s; cases t; simp_all

end Sys2Proof.Machine
end

