-- ==== Sys2Proof/Laws/Ops.lean ====
section
/-! SUPPORT. What each shared operation can do: one lemma for each case of a stack operation, the bounded memory
primitives, fetch, and the end of a cycle. -/

namespace Sys2Proof.Machine

/-! ## The end of a cycle -/

@[simp] theorem finish_ok (m : Mnemonic) (s t : State) : finish m s (.ok t) = .next (t.advance (opcodeMap m)) := rfl

@[simp] theorem finish_error (m : Mnemonic) (s : State) (c : Fault) : finish m s (.error c) = .next (s.raise c) := rfl

/-- Everything `finish` can answer: the advanced state of a handler that completed, or the raise of one that did not. -/
theorem finish_cases {m : Mnemonic} {s t : State} {r : Except Fault State} (h : finish m s r = .next t) :
    (∃ u, r = .ok u ∧ t = u.advance (opcodeMap m)) ∨ (∃ c, r = .error c ∧ t = s.raise c) := by
  cases r with
  | ok u => exact .inl ⟨u, rfl, by simpa using h.symm⟩
  | error c => exact .inr ⟨c, rfl, by simpa using h.symm⟩

/-- A cycle whose handler ran always has a next state. -/
theorem finish_next (m : Mnemonic) (s : State) (r : Except Fault State) : ∃ t, finish m s r = .next t := by
  cases r <;> exact ⟨_, rfl⟩

/-! ## The bounded memory primitives (R31) -/

theorem State.memRead_ok (s : State) {a : Nat} (h : a < 256) : s.memRead a = .ok (s.mem.read a) := if_pos h

theorem State.memRead_error (s : State) {a : Nat} (h : 256 ≤ a) : s.memRead a = .error (.outOfBoundsAddress a) :=
  if_neg (by simp [Config.memSize]; omega)

theorem State.memWrite_ok (s : State) {a : Nat} (h : a < 256) (v : Byte) :
    s.memWrite a v = .ok { s with mem := s.mem.write a v } := if_pos h

theorem State.memWrite_error (s : State) {a : Nat} (h : 256 ≤ a) (v : Byte) :
    s.memWrite a v = .error (.outOfBoundsAddress a) :=
  if_neg (by simp [Config.memSize]; omega)

/-! ## Fetch (R66) -/

theorem State.fetch_ok {s : State} (h : s.pc.toNat ≤ 253) :
    s.fetch = .ok { s with
      ir := s.mem.read s.pc.toNat
      opa := s.mem.read (s.pc.toNat + 1)
      opb := s.mem.read (s.pc.toNat + 2) } := by
  simp [State.fetch, s.memRead_ok (show s.pc.toNat < 256 by omega),
    s.memRead_ok (show s.pc.toNat + 1 < 256 by omega), s.memRead_ok (show s.pc.toNat + 2 < 256 by omega)]
  rfl

theorem State.fetch_error {s : State} (h : 254 ≤ s.pc.toNat) :
    s.fetch = .error (.outOfBoundsAddress (max 256 s.pc.toNat)) := by
  simp only [State.fetch]
  by_cases h0 : 256 ≤ s.pc.toNat
  · rw [s.memRead_error h0, Nat.max_eq_right h0]; rfl
  · rw [s.memRead_ok (by omega)]
    by_cases h1 : s.pc.toNat = 255
    · rw [s.memRead_error (a := s.pc.toNat + 1) (by omega), h1]; rfl
    · have h2 : s.pc.toNat = 254 := by omega
      rw [s.memRead_ok (a := s.pc.toNat + 1) (by omega), s.memRead_error (a := s.pc.toNat + 2) (by omega), h2]; rfl

/-! ## The stack (R92, R93) -/

theorem State.push_error {s : State} (h : s.sp = 0) (f : State → Byte) : s.push f = .error (.stackBounds 0) := by
  simp [State.push, h]

theorem State.push_ok {s : State} (h : s.sp ≠ 0) (f : State → Byte) :
    s.push f = .ok ((s.wr Config.spReg (s.sp - 1)).wr s.pushAddress (f (s.wr Config.spReg (s.sp - 1)))) := by
  rw [State.push, if_neg h]
  simp [State.pushAddress]

theorem State.top_error {s : State} (h : Config.spTop ≤ s.sp) : s.top = .error (.stackBounds s.sp) := if_pos h

theorem State.top_ok {s : State} (h : s.sp < Config.spTop) : s.top = .ok (s.rd s.sp) :=
  if_neg (BitVec.not_le.2 h)

theorem popInto_empty {s : State} (h : Config.spTop ≤ s.sp) (ra : Byte) : popInto ra s = .error (.stackBounds s.sp) := by
  simp [popInto, State.top_error h]

theorem popInto_leaves {s : State} (h : s.sp < Config.spTop) (hv : Config.spTop ≤ s.rd s.sp) :
    popInto Config.spReg s = .error (.stackBounds (s.rd s.sp)) := by
  simp [popInto, State.top_ok h, hv]

theorem popInto_ok {s : State} {ra : Byte} (h : s.sp < Config.spTop)
    (hv : ra = Config.spReg → s.rd s.sp < Config.spTop) :
    popInto ra s = .ok (s.wr ra (s.rd s.sp)).dropTop := by
  have : ¬(ra = Config.spReg ∧ Config.spTop ≤ s.rd s.sp) := fun ⟨h1, h2⟩ => BitVec.not_le.2 (hv h1) h2
  simp [popInto, State.top_ok h, this]

theorem callThrough_error {s : State} (h : s.sp = 0) (ra : Byte) : callThrough ra s = .error (.stackBounds 0) := by
  simp [callThrough, State.push_error h]

theorem callThrough_ok {s : State} (h : s.sp ≠ 0) (ra : Byte) :
    callThrough ra s =
      .ok (let t := (s.wr Config.spReg (s.sp - 1)).wr s.pushAddress ((s.pc + 2).setWidth 8)
           t.setPc (t.target ra)) := by
  simp [callThrough, State.push_ok h]

theorem returnFrom_error {s : State} (h : Config.spTop ≤ s.sp) : returnFrom s = .error (.stackBounds s.sp) := by
  simp [returnFrom, State.top_error h]

theorem returnFrom_ok {s : State} (h : s.sp < Config.spTop) :
    returnFrom s = .ok (s.setPc ((s.rd s.sp).setWidth 9)).dropTop := by
  simp [returnFrom, State.top_ok h]

end Sys2Proof.Machine
end

