-- ==== Sys2Proof/Laws/Exec.lean ====
section
/-! SUPPORT. Everything the meaning of an instruction can answer, said once: the report of a reserved slot, the raise of a
stack instruction, or the state its handler leaves, advanced. -/

namespace Sys2Proof.Machine

/-- The state the handler of an instruction leaves where it does not raise (the reserved slots have no handler). -/
def handled (i : Instr) (s : State) : State :=
  match i with
  | .nop => s
  | .hlt => s.halt
  | .ldi ra imm => s.wr ra imm
  | .ld ra rb => s.wr ra (s.rd (s.rd rb))
  | .st ra rb => s.wr (s.rd ra) (s.rd rb)
  | .push ra => (s.wr Config.spReg (s.sp - 1)).wr (s.sp - 1) ((s.wr Config.spReg (s.sp - 1)).rd ra)
  | .pop ra => (s.wr ra (s.rd s.sp)).wr Config.spReg ((s.wr ra (s.rd s.sp)).sp + 1)
  | .call ra =>
    ((s.wr Config.spReg (s.sp - 1)).wr (s.sp - 1) ((s.pc + 2).setWidth 8)).setPc
      ((((s.wr Config.spReg (s.sp - 1)).wr (s.sp - 1) ((s.pc + 2).setWidth 8)).rd ra).setWidth 9)
  | .ret => (s.setPc ((s.rd s.sp).setWidth 9)).wr Config.spReg (s.sp + 1)
  | .jmp ra => s.setPc ((s.rd ra).setWidth 9)
  | .jeq ra => jumpIf s.isEqual ra s
  | .jne ra => jumpIf s.isNotEqual ra s
  | .jgt ra => jumpIf s.isGreater ra s
  | .jge ra => jumpIf s.isGreaterOrEqual ra s
  | .jlt ra => jumpIf s.isLess ra s
  | .jle ra => jumpIf s.isLessOrEqual ra s
  | .prn ra => s.emitOut (.prn (s.rd ra))
  | .pra ra => s.emitOut (.pra (s.rd ra))
  | .add ra rb => aluBinary aluAdd ra rb s
  | .sub ra rb => aluBinary aluSub ra rb s
  | .mul ra rb => aluBinary aluMul ra rb s
  | .div ra rb => aluDivide aluDiv .divideByZero ra rb s
  | .mod ra rb => aluDivide aluMod .moduloByZero ra rb s
  | .and ra rb => aluBinary aluAnd ra rb s
  | .or ra rb => aluBinary aluOr ra rb s
  | .xor ra rb => aluBinary aluXor ra rb s
  | .not ra => aluUnary aluNot ra s
  | .inc ra => aluUnary aluInc ra s
  | .dec ra => aluUnary aluDec ra s
  | .shl ra _ => aluUnary aluShl ra s
  | .shr ra _ => aluUnary aluShr ra s
  | .cmp ra rb => s.setFl (compareFlags (s.rd ra) (s.rd rb))
  | .int _ => s
  | .iret => s

/-- Everything a meaning can answer. -/
theorem exec_cases {i : Instr} {s t : State} (h : exec i s = .next t) :
    (i.wellFormed = false ∧ t = s.invalidInstruction (opcodeMap i.mnemonic)) ∨
      (∃ b, i.mnemonic ∈ [Mnemonic.push, .pop, .call, .ret] ∧ (b = 0 ∨ Config.spTop ≤ b) ∧
        t = s.raise (.stackBounds b)) ∨
      (i.wellFormed = true ∧ t = (handled i s).advance (opcodeMap i.mnemonic)) := by
  cases i
  case int => exact .inl ⟨rfl, (Host.Outcome.next.inj h).symm⟩
  case iret => exact .inl ⟨rfl, (Host.Outcome.next.inj h).symm⟩
  case push ra =>
    right
    by_cases hs : s.sp = 0
    · simp only [exec, execPush, State.push_error hs, finish_error, Host.Outcome.next.injEq] at h
      exact .inl ⟨0, by simp [Instr.mnemonic], .inl rfl, h.symm⟩
    · simp only [exec, execPush, State.push_ok hs, finish_ok, Host.Outcome.next.injEq] at h
      exact .inr ⟨rfl, h.symm⟩
  case call ra =>
    right
    by_cases hs : s.sp = 0
    · simp only [exec, execCall, callThrough_error hs, finish_error, Host.Outcome.next.injEq] at h
      exact .inl ⟨0, by simp [Instr.mnemonic], .inl rfl, h.symm⟩
    · simp only [exec, execCall, callThrough_ok hs, finish_ok, Host.Outcome.next.injEq] at h
      exact .inr ⟨rfl, h.symm⟩
  case pop ra =>
    right
    by_cases hs : Config.spTop ≤ s.sp
    · simp only [exec, execPop, popInto_empty hs, finish_error, Host.Outcome.next.injEq] at h
      exact .inl ⟨_, by simp [Instr.mnemonic], .inr hs, h.symm⟩
    · by_cases hv : ra = Config.spReg ∧ Config.spTop ≤ s.rd s.sp
      · obtain ⟨rfl, hv⟩ := hv
        simp only [exec, execPop, popInto_leaves (BitVec.not_le.1 hs) hv, finish_error, Host.Outcome.next.injEq] at h
        exact .inl ⟨_, by simp [Instr.mnemonic], .inr hv, h.symm⟩
      · have hv' : ra = Config.spReg → s.rd s.sp < Config.spTop := fun e => BitVec.not_le.1 fun hle => hv ⟨e, hle⟩
        simp only [exec, execPop, popInto_ok (BitVec.not_le.1 hs) hv', finish_ok, Host.Outcome.next.injEq] at h
        exact .inr ⟨rfl, h.symm⟩
  case ret =>
    right
    by_cases hs : Config.spTop ≤ s.sp
    · simp only [exec, execRet, returnFrom_error hs, finish_error, Host.Outcome.next.injEq] at h
      exact .inl ⟨_, by simp [Instr.mnemonic], .inr hs, h.symm⟩
    · simp only [exec, execRet, returnFrom_ok (BitVec.not_le.1 hs), finish_ok, Host.Outcome.next.injEq] at h
      exact .inr ⟨rfl, h.symm⟩
  all_goals exact .inr (.inr ⟨rfl, (Host.Outcome.next.inj h).symm⟩)

/-- Every meaning ends in a next state, in every state. -/
theorem exec_next (i : Instr) (s : State) : ∃ t, exec i s = .next t := by
  cases i <;> first | exact finish_next _ _ _ | exact ⟨_, rfl⟩

end Sys2Proof.Machine
end

