-- ==== Sys2Proof/Laws/PerInstr.lean ====
section
/-! SUPPORT. A family of statements about every instruction as syntax, one lemma per constructor: this hardware's words
round-trip through the decoder, and their length is the operand count plus one (30_encoding.md R50, R52). -/

namespace Sys2Proof.Laws.RoundTrip

/-- The decoder reads an instruction's own bytes back, whatever follows, and bits 7..6 of the first byte count the rest. -/
def Statement (i : Instr) : Prop :=
  (∀ rest, decode (encode i ++ rest) = .ok (i, rest)) ∧
    (encode i).length = operandCount (opcodeMap i.mnemonic) + 1

/-- What is left to check of one instruction: its operand bytes put back under its mnemonic. -/
theorem of_operands {i : Instr}
    (h : ∀ rest : List Byte, i.mnemonic.withOperands ((i.operands ++ rest).getD 0 0) ((i.operands ++ rest).getD 1 0) = i) :
    Statement i :=
  ⟨fun rest => by
    simp only [decode, decodeWith, encode, encodeWith, List.cons_append, lookup_opcode opcodeMap_distinct,
      operandCount_opcodeMap, List.length_append, List.drop_left', h]
    simp,
   by simp [encode, encodeWith, operandCount_opcodeMap]⟩

theorem nop : Statement .nop := of_operands fun _ => rfl
theorem hlt : Statement .hlt := of_operands fun _ => rfl
theorem ret : Statement .ret := of_operands fun _ => rfl
theorem push (ra : Byte) : Statement (.push ra) := of_operands fun _ => rfl
theorem pop (ra : Byte) : Statement (.pop ra) := of_operands fun _ => rfl
theorem prn (ra : Byte) : Statement (.prn ra) := of_operands fun _ => rfl
theorem pra (ra : Byte) : Statement (.pra ra) := of_operands fun _ => rfl
theorem call (ra : Byte) : Statement (.call ra) := of_operands fun _ => rfl
theorem jmp (ra : Byte) : Statement (.jmp ra) := of_operands fun _ => rfl
theorem jeq (ra : Byte) : Statement (.jeq ra) := of_operands fun _ => rfl
theorem jne (ra : Byte) : Statement (.jne ra) := of_operands fun _ => rfl
theorem jgt (ra : Byte) : Statement (.jgt ra) := of_operands fun _ => rfl
theorem jlt (ra : Byte) : Statement (.jlt ra) := of_operands fun _ => rfl
theorem jle (ra : Byte) : Statement (.jle ra) := of_operands fun _ => rfl
theorem jge (ra : Byte) : Statement (.jge ra) := of_operands fun _ => rfl
theorem inc (ra : Byte) : Statement (.inc ra) := of_operands fun _ => rfl
theorem dec (ra : Byte) : Statement (.dec ra) := of_operands fun _ => rfl
theorem not (ra : Byte) : Statement (.not ra) := of_operands fun _ => rfl
theorem ldi (ra rb : Byte) : Statement (.ldi ra rb) := of_operands fun _ => rfl
theorem ld (ra rb : Byte) : Statement (.ld ra rb) := of_operands fun _ => rfl
theorem st (ra rb : Byte) : Statement (.st ra rb) := of_operands fun _ => rfl
theorem add (ra rb : Byte) : Statement (.add ra rb) := of_operands fun _ => rfl
theorem sub (ra rb : Byte) : Statement (.sub ra rb) := of_operands fun _ => rfl
theorem mul (ra rb : Byte) : Statement (.mul ra rb) := of_operands fun _ => rfl
theorem div (ra rb : Byte) : Statement (.div ra rb) := of_operands fun _ => rfl
theorem mod (ra rb : Byte) : Statement (.mod ra rb) := of_operands fun _ => rfl
theorem cmp (ra rb : Byte) : Statement (.cmp ra rb) := of_operands fun _ => rfl
theorem and (ra rb : Byte) : Statement (.and ra rb) := of_operands fun _ => rfl
theorem or (ra rb : Byte) : Statement (.or ra rb) := of_operands fun _ => rfl
theorem xor (ra rb : Byte) : Statement (.xor ra rb) := of_operands fun _ => rfl
theorem shl (ra rb : Byte) : Statement (.shl ra rb) := of_operands fun _ => rfl
theorem shr (ra rb : Byte) : Statement (.shr ra rb) := of_operands fun _ => rfl
theorem int (ra : Byte) : Statement (.int ra) := of_operands fun _ => rfl
theorem iret : Statement .iret := of_operands fun _ => rfl

end Sys2Proof.Laws.RoundTrip
end

