-- ==== Sys2Proof/Laws/Step.lean ====
section
/-! SUPPORT. What a step can do, said once: everything a RUNNING machine's cycle can be, and where each meaning ends. -/

namespace Sys2Proof.Machine

theorem step_running {s : State} (h : s.run = .running) : step s = cycle s := by
  simp [step, h]

theorem fetch_latched {s : State} (h : s.canFetch) : s.fetch = .ok s.latched := State.fetch_ok h

/-- A fetch out of range raises (R66). -/
theorem cycle_fetchFault {s : State} (h : 254 ≤ s.pc.toNat) :
    cycle s = .next (s.raise (.outOfBoundsAddress (max 256 s.pc.toNat))) := by
  simp [cycle, State.fetch_error h]

/-- A fetched opcode byte that is in the table dispatches to its instruction (R68). -/
theorem cycle_valid {s : State} (h : s.canFetch) {m : Mnemonic} (hm : lookup opcodeMap s.opcodeAt = some m) :
    cycle s = exec (m.withOperands s.operandAt s.operandBAt) s.latched := by
  have hm' : lookup opcodeMap s.latched.ir = some m := hm
  simp only [cycle, fetch_latched h, decodeLatched, hm']
  rfl

/-- A fetched opcode byte that is in no row of the table is reported (R72). -/
theorem cycle_invalid {s : State} (h : s.canFetch) (hm : lookup opcodeMap s.opcodeAt = none) :
    cycle s = .next (s.latched.invalidInstruction s.opcodeAt) := by
  have hm' : lookup opcodeMap s.latched.ir = none := hm
  simp only [cycle, fetch_latched h, decodeLatched, hm']
  rfl

/-- Everything a RUNNING machine's step can be. -/
theorem step_cases {s t : State} (hr : s.run = .running) (h : step s = .next t) :
    (254 ≤ s.pc.toNat ∧ t = s.raise (.outOfBoundsAddress (max 256 s.pc.toNat))) ∨
      (s.canFetch ∧ ∃ m, lookup opcodeMap s.opcodeAt = some m ∧
        exec (m.withOperands s.operandAt s.operandBAt) s.latched = .next t) ∨
      (s.canFetch ∧ lookup opcodeMap s.opcodeAt = none ∧ t = s.latched.invalidInstruction s.opcodeAt) := by
  rw [step_running hr] at h
  by_cases hp : s.canFetch
  · cases hm : lookup opcodeMap s.opcodeAt with
    | some m => exact .inr (.inl ⟨hp, m, rfl, by rw [cycle_valid hp hm] at h; exact h⟩)
    | none =>
      rw [cycle_invalid hp hm] at h
      exact .inr (.inr ⟨hp, rfl, by simpa using h.symm⟩)
  · have hp' : 254 ≤ s.pc.toNat := by simp [State.canFetch] at hp; omega
    rw [cycle_fetchFault hp'] at h
    exact .inl ⟨hp', by simpa using h.symm⟩

@[simp] theorem State.latched_mem (s : State) : s.latched.mem = s.mem := rfl
@[simp] theorem State.latched_pc (s : State) : s.latched.pc = s.pc := rfl
@[simp] theorem State.latched_ir (s : State) : s.latched.ir = s.opcodeAt := rfl
@[simp] theorem State.latched_opa (s : State) : s.latched.opa = s.operandAt := rfl
@[simp] theorem State.latched_opb (s : State) : s.latched.opb = s.operandBAt := rfl
@[simp] theorem State.latched_fl (s : State) : s.latched.fl = s.fl := rfl
@[simp] theorem State.latched_run (s : State) : s.latched.run = s.run := rfl
@[simp] theorem State.latched_out (s : State) : s.latched.out = s.out := rfl
@[simp] theorem State.latched_diag (s : State) : s.latched.diag = s.diag := rfl
@[simp] theorem State.latched_freeCount (s : State) : s.latched.freeCount = s.freeCount := rfl
@[simp] theorem State.rd_latched (s : State) (x : Byte) : s.latched.rd x = s.rd x := rfl
@[simp] theorem State.sp_latched (s : State) : s.latched.sp = s.sp := rfl

end Sys2Proof.Machine
end

