-- ==== Sys2Proof/Laws/Stores.lean ====
section
/-! SUPPORT. What the handler of an instruction does to memory, said once: the stores of `State.stores`, and nothing else. -/

namespace Sys2Proof.Machine

variable (s : State) (m : Mnemonic)

/-- Each store of the handler is in memory after it. -/
theorem rd_handled_of_mem_stores {d v : Byte} (h : (d, v) ∈ s.stores m) :
    (handled (m.withOperands s.operandAt s.operandBAt) s.latched).rd d = v := by
  cases m <;> simp only [State.stores] at h <;> (try split at h) <;>
    simp_all [handled, Mnemonic.withOperands, aluUnary, aluBinary, aluDivide, Config.spReg] <;> grind

/-- No other cell changes. -/
theorem rd_handled_of_not_stored {x : Byte} (h : ∀ v, (x, v) ∉ s.stores m) :
    (handled (m.withOperands s.operandAt s.operandBAt) s.latched).rd x = s.rd x := by
  cases m <;> simp only [State.stores] at h <;> (try split at h) <;>
    simp_all [handled, Mnemonic.withOperands, jumpIf, aluUnary, aluBinary, aluDivide, Config.spReg] <;> grind

end Sys2Proof.Machine
end

