-- ==== Sys2Proof/Tests/Slice0.lean ====
section
/-! SUPPORT. The model's own tests: well-formedness, decoding of words written out from spec/30_encoding.md R56, one-step
vectors of spec/95_test_vectors.md (each named by its id there), and for every obligation with hypotheses a witness that
meets them. -/

namespace Sys2Proof.Tests

open Sys2Proof Sys2Proof.Machine

/-! ## Helpers -/

/-- The state after reset, with some cells, the pc and the flags set. -/
def placed (pc : PcWord) (fl : BitVec 3) (cells : List Host.Cell) : State :=
  { State.reset with mem := cells.foldl (fun m c => m.write c.1 c.2) [], pc := pc, fl := fl }

/-- Bytes as cells from an address on. -/
def cellsFrom (a : Nat) : List Byte → List Host.Cell
  | [] => []
  | b :: bs => (a, b) :: cellsFrom (a + 1) bs

/-- A state about to run the given bytes at 0x20, with some cells set. -/
def code (bytes : List Byte) (cells : List Host.Cell) (fl : BitVec 3 := 0) : State :=
  placed 0x20 fl (cellsFrom 0x20 bytes ++ cells)

/-- The next state of a step, if there is one. -/
def stepped (s : State) : Option State :=
  match step s with
  | .next t => some t
  | .fault _ => none
  | .refused _ => none

/-- One cell and the pc after a step. -/
def after (s : State) (a : Byte) : Option (Byte × PcWord) := (stepped s).map fun t => (t.rd a, t.pc)

/-- RUN, the pc and the diagnostic stream after a step. -/
def report (s : State) : Option (RunState × PcWord × List DiagEvent) := (stepped s).map fun t => (t.run, t.pc, t.diag)

/-! ## Well-formedness -/

theorem test_int_is_not_an_instruction : (Instr.int 1).wellFormed = false := by decide
theorem test_iret_is_not_an_instruction : Instr.iret.wellFormed = false := by decide
theorem test_ldi_is_an_instruction : (Instr.ldi 255 255).wellFormed = true := by decide

/-- The opcode map with one entry changed. -/
def changed (m : Mnemonic) (b : Byte) : OpcodeMap := fun n => if n = m then b else opcodeMap n

theorem test_map_is_well_formed : opcodeMap.wellFormed = true := by decide
theorem test_map_with_wrong_high_nibble : (changed .push 0x55).highNibblesMatch = false := by decide
theorem test_map_with_wrong_source_byte : (changed .prn 0x4F).sourceBytesMatch = false := by decide
theorem test_map_with_a_shared_byte : (changed .pop 0x45).distinct = false := by decide
theorem test_ill_formed_maps_are_refused :
    (changed .push 0x55).wellFormed = false ∧ (changed .prn 0x4F).wellFormed = false ∧
      (changed .pop 0x45).wellFormed = false := by decide
theorem test_another_map_is_well_formed : (changed .pop 0x4F).wellFormed = true := by decide
theorem test_image_of_256_bytes : imageWellFormed (List.replicate 256 0) = true := by
  rw [imageWellFormed, List.length_replicate]; decide
theorem test_image_of_257_bytes : imageWellFormed (List.replicate 257 0) = false := by
  rw [imageWellFormed, List.length_replicate]; decide

/-! ## Decoding: the words of R56 and R57 written out in binary, operand a = 0x93, operand b = 0x6C -/

theorem test_decode_nop : decodeTableWord 8 0b00000000 = some .nop := by decide
theorem test_decode_hlt : decodeTableWord 8 0b00000001 = some .hlt := by decide
theorem test_decode_ret : decodeTableWord 8 0b00010001 = some .ret := by decide
theorem test_decode_push : decodeTableWord 16 0b1001001101000101 = some (.push 0x93) := by decide
theorem test_decode_pop : decodeTableWord 16 0b1001001101000110 = some (.pop 0x93) := by decide
theorem test_decode_prn : decodeTableWord 16 0b1001001101000111 = some (.prn 0x93) := by decide
theorem test_decode_pra : decodeTableWord 16 0b1001001101001000 = some (.pra 0x93) := by decide
theorem test_decode_call : decodeTableWord 16 0b1001001101010000 = some (.call 0x93) := by decide
theorem test_decode_jmp : decodeTableWord 16 0b1001001101010100 = some (.jmp 0x93) := by decide
theorem test_decode_jeq : decodeTableWord 16 0b1001001101010101 = some (.jeq 0x93) := by decide
theorem test_decode_jne : decodeTableWord 16 0b1001001101010110 = some (.jne 0x93) := by decide
theorem test_decode_jgt : decodeTableWord 16 0b1001001101010111 = some (.jgt 0x93) := by decide
theorem test_decode_jlt : decodeTableWord 16 0b1001001101011000 = some (.jlt 0x93) := by decide
theorem test_decode_jle : decodeTableWord 16 0b1001001101011001 = some (.jle 0x93) := by decide
theorem test_decode_jge : decodeTableWord 16 0b1001001101011010 = some (.jge 0x93) := by decide
theorem test_decode_inc : decodeTableWord 16 0b1001001101100101 = some (.inc 0x93) := by decide
theorem test_decode_dec : decodeTableWord 16 0b1001001101100110 = some (.dec 0x93) := by decide
theorem test_decode_not : decodeTableWord 16 0b1001001101101001 = some (.not 0x93) := by decide
theorem test_decode_ldi : decodeTableWord 24 0b011011001001001110000010 = some (.ldi 0x93 0x6C) := by decide
theorem test_decode_ld : decodeTableWord 24 0b011011001001001110000011 = some (.ld 0x93 0x6C) := by decide
theorem test_decode_st : decodeTableWord 24 0b011011001001001110000100 = some (.st 0x93 0x6C) := by decide
theorem test_decode_add : decodeTableWord 24 0b011011001001001110100000 = some (.add 0x93 0x6C) := by decide
theorem test_decode_sub : decodeTableWord 24 0b011011001001001110100001 = some (.sub 0x93 0x6C) := by decide
theorem test_decode_mul : decodeTableWord 24 0b011011001001001110100010 = some (.mul 0x93 0x6C) := by decide
theorem test_decode_div : decodeTableWord 24 0b011011001001001110100011 = some (.div 0x93 0x6C) := by decide
theorem test_decode_mod : decodeTableWord 24 0b011011001001001110100100 = some (.mod 0x93 0x6C) := by decide
theorem test_decode_cmp : decodeTableWord 24 0b011011001001001110100111 = some (.cmp 0x93 0x6C) := by decide
theorem test_decode_and : decodeTableWord 24 0b011011001001001110101000 = some (.and 0x93 0x6C) := by decide
theorem test_decode_or : decodeTableWord 24 0b011011001001001110101010 = some (.or 0x93 0x6C) := by decide
theorem test_decode_xor : decodeTableWord 24 0b011011001001001110101011 = some (.xor 0x93 0x6C) := by decide
theorem test_decode_shl : decodeTableWord 24 0b011011001001001110101100 = some (.shl 0x93 0x6C) := by decide
theorem test_decode_shr : decodeTableWord 24 0b011011001001001110101101 = some (.shr 0x93 0x6C) := by decide
theorem test_decode_int : decodeTableWord 16 0b1001001101010010 = some (.int 0x93) := by decide
theorem test_decode_iret : decodeTableWord 8 0b00010011 = some .iret := by decide

/-- Bytes of no row are refused by name, as are operands that are missing (R58, 95_test_vectors.md 2.1). -/
theorem test_decode_refuses : decodeTableWord 8 0x21 = none ∧ decodeTableWord 8 0x10 = none ∧ decodeTableWord 24 0xA5 = none ∧
    decodeTableWord 32 0xFF = none := by decide
theorem test_decode_truncated : decode [0x82, 1] = .error (.truncated 0x82) := by rfl

/-! ## One step, the vectors of 95_test_vectors.md sections 2 and 3 -/

theorem test_Y1_nop : report (code [0x00] []) =
    some (.running, 0x21, []) := by decide
theorem test_Y2_hlt : report (code [0x01] []) =
    some (.halted, 0x21, []) := by decide
theorem test_M1_ldi : after (code [0x82, 0x03, 0xFF] []) 3 = some (0xFF, 0x23) := by decide
theorem test_M3_ldi_high_cell : after (code [0x82, 0xC8, 0x05] []) 200 = some (0x05, 0x23) := by decide
theorem test_M4_ld : after (code [0x83, 0x03, 0x02] [(2, 0x80), (0x80, 0x2A)]) 3 = some (0x2A, 0x23) := by decide
theorem test_M5_ld_same_cell : after (code [0x83, 0x00, 0x00] [(0, 0x30), (0x30, 0x99)]) 0 = some (0x99, 0x23) := by decide
theorem test_M8_st : after (code [0x84, 0x02, 0x00] [(2, 0x80), (0, 0x2A)]) 0x80 = some (0x2A, 0x23) := by decide
theorem test_M10_st_pointer_is_target : after (code [0x84, 0x01, 0x02] [(1, 0x01), (2, 0x55)]) 1 = some (0x55, 0x23) := by decide
theorem test_K3_push_sp : after (code [0x45, 0x07] []) 0xF3 = some (0xF3, 0x22) := by decide
theorem test_K4_push_slot_is_sp : after (code [0x45, 0x00] [(7, 0x08), (0, 0x55)]) 7 = some (0x55, 0x22) := by decide
theorem test_K2_pop : after (code [0x46, 0x01] [(7, 0xF3), (0xF3, 0x18)]) 1 = some (0x18, 0x22) := by decide
theorem test_K8_pop_sp : after (code [0x46, 0x07] [(7, 0xF0), (0xF0, 0x20)]) 7 = some (0x21, 0x22) := by decide
theorem test_K10_push_faults : report (code [0x45, 0x00] [(7, 0)]) =
    some (.faulted (.stackBounds 0), 0x20, []) := by decide
theorem test_K13_pop_sp_faults : report (code [0x46, 0x07] [(7, 0xF0), (0xF0, 0xF4)]) =
    some (.faulted (.stackBounds 0xF4), 0x20, []) := by decide
theorem test_J1_jmp : after (code [0x54, 0x00] [(0, 0x10)]) 0 = some (0x10, 0x10) := by decide
theorem test_J3_jmp_sp : after (code [0x54, 0x07] []) 7 = some (0xF4, 0xF4) := by decide
theorem test_J5_call : after (code [0x50, 0x01] [(1, 0x30)]) 0xF3 = some (0x22, 0x30) := by decide
theorem test_J7_call_through_the_slot : after (code [0x50, 0xF3] [(0xF3, 0x77)]) 0xF3 = some (0x22, 0x22) := by decide
theorem test_J10_ret : after (code [0x11] [(7, 0xF3), (0xF3, 0x18)]) 7 = some (0xF4, 0x18) := by decide
theorem test_J11_ret_faults : report (code [0x11] []) =
    some (.faulted (.stackBounds 0xF4), 0x20, []) := by decide

/-- The pc after a conditional jump to 0x50 with the flags E, G, L and none. -/
def jumpRow (op : Byte) : List (Option (Byte × PcWord)) :=
  [0b001, 0b010, 0b100, 0b000].map fun f => after (code [op, 0x00] [(0, 0x50)] f) 0

theorem test_jeq_row : jumpRow 0x55 = [some (0x50, 0x50), some (0x50, 0x22), some (0x50, 0x22), some (0x50, 0x22)] := by
  decide
theorem test_jne_row : jumpRow 0x56 = [some (0x50, 0x22), some (0x50, 0x50), some (0x50, 0x50), some (0x50, 0x50)] := by
  decide
theorem test_jgt_row : jumpRow 0x57 = [some (0x50, 0x22), some (0x50, 0x50), some (0x50, 0x22), some (0x50, 0x22)] := by
  decide
theorem test_jge_row : jumpRow 0x5A = [some (0x50, 0x50), some (0x50, 0x50), some (0x50, 0x22), some (0x50, 0x22)] := by
  decide
theorem test_jlt_row : jumpRow 0x58 = [some (0x50, 0x22), some (0x50, 0x22), some (0x50, 0x50), some (0x50, 0x22)] := by
  decide
theorem test_jle_row : jumpRow 0x59 = [some (0x50, 0x50), some (0x50, 0x22), some (0x50, 0x50), some (0x50, 0x22)] := by
  decide

theorem test_O3_prn : (stepped (code [0x47, 0x00] [(0, 0xFF)])).map (fun t => (t.out, t.pc)) = some ([.prn 255], 0x22) := by decide
theorem test_O5_pra : (stepped (code [0x48, 0x00] [(0, 0x41)])).map (fun t => (t.out, t.pc)) = some ([.pra 0x41], 0x22) := by decide
theorem test_O3_rendered : decimal 255 = ['2', '5', '5'] ∧ decimal 0 = ['0'] ∧ decimal 17 = ['1', '7'] := by decide
theorem test_O5_rendered : character 0x41 = 'A' := by decide

theorem test_A2_add : after (code [0xA0, 0x00, 0x01] [(0, 255), (1, 1)]) 0 = some (0, 0x23) := by decide
theorem test_A3_add : after (code [0xA0, 0x00, 0x01] [(0, 200), (1, 100)]) 0 = some (44, 0x23) := by decide
theorem test_A6_sub : after (code [0xA1, 0x00, 0x01] [(0, 5), (1, 9)]) 0 = some (252, 0x23) := by decide
theorem test_A5_sub : after (code [0xA1, 0x00, 0x01] [(0, 9), (1, 5)]) 0 = some (4, 0x23) := by decide
theorem test_A8_mul : after (code [0xA2, 0x00, 0x01] [(0, 21), (1, 2)]) 0 = some (42, 0x23) := by decide
theorem test_A10_mul : after (code [0xA2, 0x00, 0x01] [(0, 255), (1, 255)]) 0 = some (1, 0x23) := by decide
theorem test_A11_div : after (code [0xA3, 0x00, 0x01] [(0, 17), (1, 5)]) 0 = some (3, 0x23) := by decide
theorem test_A16_mod : after (code [0xA4, 0x00, 0x01] [(0, 17), (1, 5)]) 0 = some (2, 0x23) := by decide
theorem test_A20_inc : after (code [0x65, 0x00] [(0, 255), (1, 0)]) 0 = some (0, 0x22) := by decide
theorem test_A19_inc : after (code [0x65, 0x00] [(0, 4), (1, 0)]) 0 = some (5, 0x22) := by decide
theorem test_A22_dec : after (code [0x66, 0x00] [(0, 0), (1, 0)]) 0 = some (255, 0x22) := by decide
theorem test_A21_dec : after (code [0x66, 0x00] [(0, 5), (1, 0)]) 0 = some (4, 0x22) := by decide
theorem test_A23_and : after (code [0xA8, 0x00, 0x01] [(0, 0xCC), (1, 0xAA)]) 0 = some (0x88, 0x23) := by decide
theorem test_A24_or : after (code [0xAA, 0x00, 0x01] [(0, 0xCC), (1, 0xAA)]) 0 = some (0xEE, 0x23) := by decide
theorem test_A25_xor : after (code [0xAB, 0x00, 0x01] [(0, 0xCC), (1, 0xAA)]) 0 = some (0x66, 0x23) := by decide
theorem test_A27_not : after (code [0x69, 0x00] [(0, 0xCC), (1, 0)]) 0 = some (0x33, 0x22) := by decide
theorem test_A33_shl : after (code [0xAC, 0x00, 0x01] [(0, 7), (1, 0)]) 0 = some (128, 0x23) := by decide
theorem test_A34_shl : after (code [0xAC, 0x00, 0x01] [(0, 8), (1, 0)]) 0 = some (0, 0x23) := by decide
theorem test_A36_shr : after (code [0xAD, 0x00, 0x01] [(0, 200), (1, 1)]) 0 = some (0, 0x23) := by decide
theorem test_A13_div_by_zero : report (code [0xA3, 0x00, 0x01] [(0, 7)]) =
    some (.halted, 0x23, [.divideByZero 0x20]) := by decide
theorem test_A18_mod_by_zero : report (code [0xA4, 0x00, 0x01] [(0, 7)]) =
    some (.halted, 0x23, [.moduloByZero 0x20]) := by decide
theorem test_A43_cmp : (stepped (code [0xA7, 0x01, 0x02] [(1, 0), (2, 255)] 0b010)).map (fun t => t.fl) = some 0b100 := by decide
theorem test_A45_cmp : (stepped (code [0xA7, 0x01, 0x02] [(1, 128), (2, 127)] 0b001)).map (fun t => t.fl) = some 0b010 := by decide
theorem test_T10_int : report (code [0x52] []) =
    some (.running, 0x20, [.invalidInstruction 0x52]) := by decide
theorem test_iret : report (code [0x13] []) =
    some (.running, 0x20, [.invalidInstruction 0x13]) := by decide

theorem test_T7_invalid : report (code [0x02] []) =
    some (.running, 0x21, [.invalidInstruction 0x02]) := by decide
theorem test_T9_invalid : report (code [0xC0] []) =
    some (.running, 0x24, [.invalidInstruction 0xC0]) := by decide
theorem test_T1_hlt_at_253 : report (placed 253 0 [(253, 0x01)]) = some (.halted, 254, []) := by decide
theorem test_T2_hlt_at_254 : report (placed 254 0 [(254, 0x01)]) = some (.faulted (.outOfBoundsAddress 256), 254, []) := by decide
theorem test_T5_next_cycle : report (placed 257 0 []) = some (.faulted (.outOfBoundsAddress 257), 257, []) := by decide
theorem test_T13_st_over_its_own_opcode : after (placed 0x10 0 [(0x10, 0x84), (0x11, 1), (0x12, 2), (1, 0x10), (2, 0)]) 0x10 = some (0, 0x13) := by decide
theorem test_L2_load : (State.boot [1, 2, 3, 4, 5, 6, 7]).sp = 0xF4 ∧ (State.boot [1, 2, 3, 4, 5, 6, 7]).rd 6 = 7 := by decide
theorem test_L3_load_through_sp : (State.boot [1, 2, 3, 4, 5, 6, 7, 8]).sp = 8 := by decide

/-- The word the host places is fetched by the very next step, from reset and from a pc that has run off the memory. -/
theorem test_withFetchWord :
    (stepped (State.reset.withFetchWord 24 0xFF0382)).map (fun t => (t.rd 3, t.pc, t.ir)) = some (0xFF, 3, 0x82) ∧
      (stepped ((placed 254 0 []).withFetchWord 8 0x01)).map (fun t => (t.run, t.pc)) = some (.halted, 1) := by
  decide

/-! ## Witnesses: states and operands that meet the hypotheses of the obligations -/

/-- A byte that no mnemonic has is invalid. -/
theorem isInvalid_of_lookup {ir : Byte} (h : ∀ m ∈ Mnemonic.all, m.reserved = false → opcodeMap m ≠ ir) : isInvalid ir :=
  fun m => h m (by cases m <;> decide)

theorem witness_EveryOpcodeMapRoundTrips : opcodeMap.wellFormed = true ∧ (changed .pop 0x4F).wellFormed = true := by
  decide

theorem witness_DecodedBytesAreTheEncoding :
    opcodeMap.wellFormed = true ∧ decodeWith opcodeMap [0x82, 1, 2, 9] = .ok (.ldi 1 2, [9]) :=
  ⟨test_map_is_well_formed, rfl⟩

theorem witness_OpcodeFieldsMatchTheHandlers :
    opcodeMap (Instr.ld 0 255).mnemonic = opcodeMap (Instr.ld 7 0).mnemonic := by decide

theorem witness_StepRunsTheDecodedInstruction :
    ∃ s : State, s.run = .running ∧ s.canFetch ∧
      decode [s.mem.read s.pc.toNat, s.mem.read (s.pc.toNat + 1), s.mem.read (s.pc.toNat + 2)] = .ok (.ldi 3 0xFF, []) :=
  ⟨code [0x82, 3, 0xFF] [], rfl, by decide, rfl⟩

theorem witness_FetchLoadsThreeBytesOrFaults :
    (placed 253 0 []).run = .running ∧ (placed 253 0 []).pc.toNat ≤ 253 ∧ (placed 254 0 []).run = .running ∧
      (placed 254 0 []).pc.toNat = 254 ∧ (placed 255 0 []).pc.toNat = 255 ∧ 256 ≤ (placed 256 0 []).pc.toNat ∧
      256 ≤ (placed 257 0 []).pc.toNat := by decide

theorem witness_InvalidInstructionReportsAndContinues :
    ∃ s t : State, (s.run = .running ∧ s.canFetch ∧ isInvalid s.opcodeAt ∧ s.opcodeAt.getLsbD 4 = false) ∧
      (t.run = .running ∧ t.canFetch ∧ isInvalid t.opcodeAt ∧ t.opcodeAt.getLsbD 4 = true) :=
  ⟨placed 253 0 [(253, 0xC0)], code [0x10] [], ⟨rfl, by decide, isInvalid_of_lookup (by decide), by decide⟩,
    rfl, by decide, isInvalid_of_lookup (by decide), by decide⟩

theorem witness_InvalidInstructionWithBit4Hangs :
    ∃ s : State, s.run = .running ∧ s.canFetch ∧ isInvalid s.opcodeAt ∧ s.opcodeAt.getLsbD 4 = true :=
  ⟨code [0x52] [], rfl, by decide, isInvalid_of_lookup (by decide), by decide⟩

theorem witness_OperandCountThreeIsInvalid :
    0xC0 ≤ (0xC0 : Byte).toNat ∧ ∃ s : State, s.run = .running ∧ s.canFetch ∧ 0xC0 ≤ s.opcodeAt.toNat ∧
      s.opcodeAt.getLsbD 4 = false :=
  ⟨by decide, placed 253 0 [(253, 0xC0)], rfl, by decide, by decide, by decide⟩

theorem witness_EveryOtherOpcodeIsInvalid :
    ∃ s t : State, (s.run = .running ∧ s.canFetch ∧ ∀ m, opcodeMap m = s.opcodeAt → m.reserved = true) ∧
      (t.run = .running ∧ t.canFetch ∧ ∀ m, opcodeMap m = t.opcodeAt → m.reserved = true) :=
  ⟨code [0x13] [], code [0x02] [], ⟨rfl, by decide, fun m => by cases m <;> decide⟩,
    rfl, by decide, fun m => by cases m <;> decide⟩

/-- A halt by HLT, a halt by a zero divisor, a fault, and a cycle that goes on. -/
theorem witness_RunEndsOnlyByHaltOrFault :
    ∃ s t : State, s.run = .running ∧ step s = .next t ∧ t.run = .halted ∧ t.run ≠ .running ∧ step t = .next t :=
  ⟨code [0x01] [], _, rfl, rfl, rfl, by decide, rfl⟩
theorem witness_RunEndsOnlyByHaltOrFault_zero_divisor :
    ∃ s t : State, s.run = .running ∧ step s = .next t ∧ t.run = .halted :=
  ⟨code [0xA3, 0, 1] [(0, 7)], _, rfl, rfl, rfl⟩
theorem witness_RunEndsOnlyByHaltOrFault_going_on :
    ∃ s t : State, s.run = .running ∧ step s = .next t ∧ t.run = .running :=
  ⟨code [0x00] [], _, rfl, rfl, rfl⟩

/-- Every one of the 32 instructions, in a cycle that does not fault. -/
theorem witness_PcAfterEveryCycle (m : Mnemonic) (h : m.reserved = false) :
    ∃ s t : State, s.run = .running ∧ s.canFetch ∧ step s = .next t ∧ (∀ c, t.run ≠ .faulted c) ∧
      lookup opcodeMap s.opcodeAt = some m := by
  refine ⟨code [opcodeMap m, 1, 2] [(7, 0xF3), (0xF3, 0x18), (2, 3)], ?_⟩
  cases m
  case int => exact absurd h (by decide)
  case iret => exact absurd h (by decide)
  all_goals exact ⟨_, rfl, by decide, rfl, nofun, rfl⟩
theorem witness_PcAfterEveryCycle_invalid :
    ∃ s t u v : State, (s.run = .running ∧ s.canFetch ∧ step s = .next t ∧ (∀ c, t.run ≠ .faulted c) ∧
        isInvalid s.opcodeAt ∧ s.opcodeAt.getLsbD 4 = false) ∧
      (u.run = .running ∧ u.canFetch ∧ step u = .next v ∧ (∀ c, v.run ≠ .faulted c) ∧ isInvalid u.opcodeAt ∧
        u.opcodeAt.getLsbD 4 = true) :=
  ⟨placed 253 0 [(253, 0xC0)], _, code [0x10] [], _,
    ⟨rfl, by decide, rfl, nofun, isInvalid_of_lookup (by decide), by decide⟩,
    rfl, by decide, rfl, nofun, isInvalid_of_lookup (by decide), by decide⟩

theorem witness_FlagsChangeOnlyByCompare :
    ∃ s t : State, s.run = .running ∧ step s = .next t ∧ t.fl ≠ s.fl ∧ s.canFetch ∧
      lookup opcodeMap s.opcodeAt = some .cmp :=
  ⟨code [0xA7, 1, 2] [(1, 3)], _, rfl, rfl, by decide, by decide, rfl⟩

/-- A fetch fault, an instruction that neither reads nor writes the flags, and a CMP. -/
theorem witness_FlagsReadOnlyByConditionalJumps :
    ∃ s t : State, s.run = .running ∧ step s = .next t ∧ 254 ≤ s.pc.toNat :=
  ⟨placed 254 0b100 [], _, rfl, rfl, by decide⟩
theorem witness_FlagsReadOnlyByConditionalJumps_add :
    ∃ s t : State, s.run = .running ∧ step s = .next t ∧
      ∀ m ∈ [Mnemonic.jeq, .jne, .jgt, .jge, .jlt, .jle, .cmp], lookup opcodeMap s.opcodeAt ≠ some m :=
  ⟨code [0xA0, 0, 1] [(0, 8), (1, 9)], _, rfl, rfl, by decide⟩
theorem witness_FlagsReadOnlyByConditionalJumps_cmp :
    ∃ s t : State, s.run = .running ∧ step s = .next t ∧ s.canFetch ∧ lookup opcodeMap s.opcodeAt = some .cmp :=
  ⟨placed 253 0b001 [(253, 0xA7), (254, 1), (255, 2), (1, 3)], _, rfl, rfl, by decide, rfl⟩

theorem witness_StreamsAppendOnlyAndUnread :
    ∃ s t : State, s.run = .running ∧ step s = .next t ∧ t.out ≠ s.out :=
  ⟨code [0x47, 0] [], _, rfl, rfl, by decide⟩

/-- The fetch bound, an invalid byte, a stack fault and a zero divisor. -/
theorem witness_AtMostOneEventInCheckOrder :
    ∃ s t : State, s.run = .running ∧ step s = .next t ∧ 254 ≤ s.pc.toNat :=
  ⟨placed 254 0 [], _, rfl, rfl, by decide⟩
theorem witness_AtMostOneEventInCheckOrder_invalid :
    ∃ s t : State, s.run = .running ∧ step s = .next t ∧ s.canFetch ∧ isInvalid s.opcodeAt :=
  ⟨placed 253 0 [(253, 0xFF)], _, rfl, rfl, by decide, isInvalid_of_lookup (by decide)⟩
theorem witness_AtMostOneEventInCheckOrder_fault :
    ∃ s t : State, s.run = .running ∧ step s = .next t ∧ s.canFetch ∧ lookup opcodeMap s.opcodeAt = some .push ∧
      t.run = .faulted (.stackBounds 0) :=
  ⟨code [0x45, 0] [(7, 0)], _, rfl, rfl, by decide, rfl, rfl⟩
theorem witness_AtMostOneEventInCheckOrder_report :
    ∃ s t : State, s.run = .running ∧ step s = .next t ∧ s.canFetch ∧ lookup opcodeMap s.opcodeAt = some .mod ∧
      t.diag ≠ s.diag :=
  ⟨code [0xA4, 0, 1] [(0, 7)], _, rfl, rfl, by decide, rfl, by decide⟩

theorem witness_FaultingCycleChangesOnlyRun :
    ∃ s t u v : State, (s.run = .running ∧ step s = .next t ∧ t.run = .faulted (.stackBounds 0xF4)) ∧
      (u.run = .running ∧ step u = .next v ∧ v.run = .faulted (.outOfBoundsAddress 256)) :=
  ⟨code [0x11] [], _, placed 255 0 [], _, ⟨rfl, rfl, rfl⟩, rfl, rfl, rfl⟩

theorem witness_LatchesAreNeverReadBeforeFetch :
    ∃ s t : State, s.run = .running ∧ step s = .next t ∧ ∀ c, t.run ≠ .faulted c :=
  ⟨code [0x82, 3, 0xFF] [], _, rfl, rfl, nofun⟩

theorem witness_EveryRunningStateHasNextState :
    State.reset.run = .running ∧ State.reset.halt.run = .halted ∧
      (State.reset.raise (.stackBounds 0)).run = .faulted (.stackBounds 0) := ⟨rfl, rfl, rfl⟩

/-- A destination operand, a pointed cell, the stack pointer and the pushed slot, each changed by one cycle. -/
theorem witness_EveryCycleWritesOnlyItsDestination :
    ∃ s t u v w x : State, (s.run = .running ∧ step s = .next t ∧ t.rd 200 ≠ s.rd 200) ∧
      (u.run = .running ∧ step u = .next v ∧ v.rd 0x80 ≠ u.rd 0x80) ∧
      (w.run = .running ∧ step w = .next x ∧ x.rd 7 ≠ w.rd 7 ∧ x.rd 0xF3 ≠ w.rd 0xF3) :=
  ⟨code [0x82, 200, 5] [], _, code [0x84, 2, 0] [(2, 0x80), (0, 0x2A)], _, code [0x45, 1] [(1, 0x30)], _,
    ⟨rfl, rfl, by decide⟩, ⟨rfl, rfl, by decide⟩, rfl, rfl, by decide, by decide⟩

/-- A cycle dispatches on `m` and leaves `v` in the cell `d`, `off` bytes into what the next cycle fetches, and both
complete. -/
def StoresAhead (s : State) (m : Mnemonic) (d v : Byte) (off : Nat) : Prop :=
  ∃ t u : State, s.run = .running ∧ s.canFetch ∧ lookup opcodeMap s.opcodeAt = some m ∧ step s = .next t ∧
    (∀ c, t.run ≠ .faulted c) ∧ t.run = .running ∧ t.canFetch ∧ step t = .next u ∧ (∀ c, u.run ≠ .faulted c) ∧
    (d, v) ∈ s.stores m ∧ d.toNat = t.pc.toNat + off

theorem witness_StoresReachTheNextFetchOnly_ldi :
    StoresAhead (placed 250 0 [(250, 0x82), (251, 255), (252, 9)]) .ldi 255 9 2 :=
  ⟨_, _, rfl, by decide, rfl, rfl, nofun, rfl, by decide, rfl, nofun, by decide, by decide⟩
theorem witness_StoresReachTheNextFetchOnly_st :
    StoresAhead (code [0x84, 1, 2] [(1, 0x23), (2, 1)]) .st 0x23 1 0 :=
  ⟨_, _, rfl, by decide, rfl, rfl, nofun, rfl, by decide, rfl, nofun, by decide, by decide⟩
theorem witness_StoresReachTheNextFetchOnly_push :
    StoresAhead (code [0x45, 1] [(7, 0x23), (1, 1)]) .push 0x22 1 0 :=
  ⟨_, _, rfl, by decide, rfl, rfl, nofun, rfl, by decide, rfl, nofun, by decide, by decide⟩
theorem witness_StoresReachTheNextFetchOnly_call :
    StoresAhead (code [0x50, 1] [(7, 0x31), (1, 0x30)]) .call 0x30 0x22 0 :=
  ⟨_, _, rfl, by decide, rfl, rfl, nofun, rfl, by decide, rfl, nofun, by decide, by decide⟩
theorem witness_StoresReachTheNextFetchOnly_pop :
    StoresAhead (code [0x46, 0x23, 0x47] [(7, 0xF3), (0xF3, 0x18)]) .pop 0x23 0x18 1 :=
  ⟨_, _, rfl, by decide, rfl, rfl, nofun, rfl, by decide, rfl, nofun, by decide, by decide⟩
theorem witness_StoresReachTheNextFetchOnly_ret :
    StoresAhead (code [0x11] [(7, 0xF3), (0xF3, 5)]) .ret 7 0xF4 2 :=
  ⟨_, _, rfl, by decide, rfl, rfl, nofun, rfl, by decide, rfl, nofun, by decide, by decide⟩
theorem witness_StoresReachTheNextFetchOnly_add :
    StoresAhead (code [0xA0, 0x23, 1] [(1, 1)]) .add 0x23 1 0 :=
  ⟨_, _, rfl, by decide, rfl, rfl, nofun, rfl, by decide, rfl, nofun, by decide, by decide⟩
/-- A ST over its own opcode: the latch keeps it, and bit 4 of it is 0. -/
theorem witness_StoresReachTheNextFetchOnly_own_bytes :
    ∃ s t : State, s.run = .running ∧ s.canFetch ∧ lookup opcodeMap s.opcodeAt = some .st ∧ step s = .next t ∧
      (∀ c, t.run ≠ .faulted c) ∧ (0x20, 0xFF) ∈ s.stores .st ∧ s.pc.toNat = 0x20 ∧ setsPc s.opcodeAt = false ∧
      ∀ v, (0x21, v) ∉ s.stores .st :=
  ⟨code [0x84, 1, 2] [(1, 0x20), (2, 0xFF)], _, rfl, by decide, rfl, rfl, nofun, by decide, by decide, by decide,
    fun v h => (by decide : (0x21 : Byte) ≠ 0x20) (congrArg Prod.fst (List.mem_singleton.1 h))⟩

/-- The bounds of the addresses: the last one inside and the first one outside. -/
theorem witness_ReadReturnsTheLastWrite : (255 : Nat) ≤ 255 ∧ (0 : Nat) ≠ 255 ∧ (7 : Nat) ≤ 255 := by decide
theorem witness_AddressesOutsideMemoryRaise : 255 < (256 : Nat) ∧ (255 : Byte).toNat = 255 := by decide

theorem witness_CanonicalMemoriesThatReadAlikeAreEqual :
    Memory.wf [(3, 1), (255, 9)] ∧ ∀ a, a ≤ 255 → Memory.read [(3, 1), (255, 9)] a = Memory.read [(3, 1), (255, 9)] a :=
  ⟨by decide, fun _ _ => rfl⟩

theorem witness_RegistersAreTheFirstCells :
    ((placed 0 0 [(9, 7)]).rd 9).toNat = (7 : Fin 8).val ∧
      (placed 0 0 [(7, 8)]).sp.toNat = (7 : Fin 8).val + 1 ∧
      (placed 0 0 [(7, 1)]).sp.toNat = (0 : Fin 8).val + 1 ∧
      ([1, 2, 3, 4, 5, 6, 7, 8] : List Byte).length ≤ 256 ∧
      ([1, 2, 3, 4, 5, 6, 7, 8] : List Byte)[(7 : Fin 8).val]? = some 8 := by decide

theorem witness_EveryStepKeepsTheInvariant :
    ∃ s t : State, s.Inv ∧ step s = .next t ∧ t.pc.toNat = 257 :=
  ⟨placed 253 0b100 [(253, 0xC0), (254, 1)], _,
    ⟨by decide, by decide, by decide, trivial⟩, rfl, by decide⟩

theorem witness_ResetValues : (0 : Fin 8).val ≠ 7 ∧ (6 : Fin 8).val ≠ 7 := by decide

/-- A whole memory's image, an image of 7 bytes, and one byte too many. -/
theorem witness_LoadCopiesTheImage :
    (List.replicate 256 (5 : Byte)).length ≤ 256 ∧ (List.replicate 256 (5 : Byte))[(255 : Byte).toNat]? = some 5 ∧
      8 ≤ (List.replicate 256 (5 : Byte)).length ∧ (List.replicate 8 (5 : Byte)).length ≤ (8 : Byte).toNat := by
  simp only [List.length_replicate, List.getElem?_replicate]; decide
theorem witness_OversizedImageFaults : 256 < (List.replicate 257 (5 : Byte)).length := by
  simp only [List.length_replicate]; decide
theorem witness_StateWhenTheFirstCycleStarts :
    (List.replicate 256 (5 : Byte)).length ≤ 256 ∧ (List.replicate 7 (5 : Byte)).length ≤ 7 := by
  simp only [List.length_replicate]; decide

theorem witness_NopOnlyAdvances : (6 : Byte) ≠ 7 ∧ (8 : Byte) ≠ 7 := by decide

theorem witness_HltHaltsAfterAdvancing :
    ∃ s : State, s.run = .running ∧ 254 ≤ s.pc.toNat ∧ s.opcodeAt = 0x01 :=
  ⟨placed 254 0 [(254, 0x01)], rfl, by decide, by decide⟩

theorem witness_LdiWritesTheImmediate : ∃ s t : State, exec (.ldi 7 0x80) s = .next t ∧ t.sp = 0x80 :=
  ⟨State.reset, _, rfl, by decide⟩

/-- The stack pointer's bounds: 1 and 255 for a push, 0xF3 for a pop, a popped stack pointer of 0xF3. -/
theorem witness_PushStoresBelowTheStackPointer :
    (placed 0 0 [(7, 1)]).sp ≠ 0 ∧ (placed 0 0 [(7, 255)]).sp ≠ 0 ∧ (placed 0 0 [(7, 9)]).pushAddress ≠ 7 := by
  decide
theorem witness_PopLoadsFromTheStackPointer :
    (placed 0 0 [(7, 0xF3)]).sp.toNat < 0xF4 ∧ (0 : Byte) ≠ 7 ∧ (placed 0 0 [(7, 0xF0), (0xF0, 0xF3)]).sp.toNat < 0xF4 ∧
      ((placed 0 0 [(7, 0xF0), (0xF0, 0xF3)]).rd (placed 0 0 [(7, 0xF0), (0xF0, 0xF3)]).sp).toNat < 0xF4 := by
  decide
theorem witness_StackBoundsFault :
    (placed 0 0 [(7, 0)]).sp = 0 ∧ 0xF4 ≤ State.reset.sp.toNat ∧ 0xF4 ≤ (placed 0 0 [(7, 255)]).sp.toNat ∧
      (placed 0 0 [(7, 0xF0), (0xF0, 0xF4)]).sp.toNat < 0xF4 ∧
      0xF4 ≤ ((placed 0 0 [(7, 0xF0), (0xF0, 0xF4)]).rd (placed 0 0 [(7, 0xF0), (0xF0, 0xF4)]).sp).toNat := by
  decide
theorem witness_PushThenPopIsBalanced :
    (0 : Byte) ≠ 7 ∧ (1 : Byte) ≠ 7 ∧ 1 ≤ State.reset.sp.toNat ∧ State.reset.sp.toNat ≤ 0xF4 ∧ State.reset.sp ≠ 8 := by
  decide

theorem witness_CallPushesTheReturnAddress :
    (placed 253 0 [(7, 1)]).sp ≠ 0 ∧ (placed 253 0 [(7, 1)]).canFetch ∧ (placed 253 0 [(7, 1)]).pushAddress ≠ 7 := by
  decide
theorem witness_RetPopsThePc : (placed 0 0 [(7, 0xF3)]).sp.toNat < 0xF4 := by decide
theorem witness_CallThenRetReturns :
    ∃ s t u : State, s.canFetch ∧ 1 ≤ s.sp.toNat ∧ s.sp.toNat ≤ 0xF4 ∧ s.sp ≠ 8 ∧ exec (.call 1) s = .next t ∧
      u.sp = t.sp ∧ u.rd u.sp = t.rd t.sp :=
  ⟨placed 253 0 [(1, 0x30)], _, _, by decide, by decide, by decide, by decide, rfl, rfl, rfl⟩

/-- The flags clear, and each condition of the jumps met and not met. -/
theorem witness_ConditionalJumpsTestTheFlags :
    State.reset.fl = 0b000 ∧ (placed 0 0b001 []).flE = true ∧ (placed 0 0b010 []).flG = true ∧
      (placed 0 0b100 []).flL = true ∧ State.reset.flE = false ∧ State.reset.flG = false ∧ State.reset.flL = false := by
  decide

theorem witness_RenderingOfOutputEvents :
    1 < (decimal 255).length ∧ 1 < (decimal 10).length ∧ (127 : Byte).toNat < 128 ∧ (0 : Byte).toNat < 128 := by
  decide

theorem witness_DivModGiveQuotientAndRemainder :
    (placed 0 0 [(1, 1)]).rd 1 ≠ 0 ∧ (placed 0 0 [(1, 255)]).rd 1 ≠ 0 := by decide
theorem witness_LogicWorksBitByBit : 7 < 8 := by decide
theorem witness_DivModByZeroReportAndHalt : State.reset.rd 1 = 0 := by decide

theorem witness_ShiftsUseTheirOwnValue : 8 ≤ ((placed 0 0 [(0, 8)]).rd 0).toNat := by decide

/-- The three orders at the bounds of a byte. -/
theorem witness_CmpSetsExactlyOneFlag :
    (State.reset.rd 0).toNat = (State.reset.rd 1).toNat ∧
      ((placed 0 0 [(1, 255)]).rd 1).toNat > ((placed 0 0 [(1, 255)]).rd 0).toNat ∧
      ((placed 0 0 [(1, 255)]).rd 0).toNat < ((placed 0 0 [(1, 255)]).rd 1).toNat := by decide

theorem witness_AluIsAPureFunctionOfItsOperands :
    (Instr.add : Byte → Byte → Instr) ∈ [Instr.add, .sub, .mul, .div, .mod, .and, .or, .xor, .shl, .shr,
      fun ra _ => .not ra, fun ra _ => .inc ra, fun ra _ => .dec ra] := by simp

end Sys2Proof.Tests
end

namespace Sys2Proof.Machine

/-! ## When a meaning raises, and what it answers where it does not -/

/-- The byte a stack instruction raises StackBounds with, if it raises (R90, R91, R92, R96, R97). -/
def stackFault (i : Instr) (s : State) : Option Byte :=
  match i with
  | .push _ | .call _ => if s.sp = 0 then some 0 else none
  | .pop ra =>
    if Config.spTop ≤ s.sp then some s.sp
    else if ra = Config.spReg ∧ Config.spTop ≤ s.rd s.sp then some (s.rd s.sp) else none
  | .ret => if Config.spTop ≤ s.sp then some s.sp else none
  | _ => none

/-- The meaning of an instruction of the 32: the raise of its stack fault, or its handler and then the advance step. -/
theorem exec_wellFormed {i : Instr} (hw : i.wellFormed = true) (s : State) :
    exec i s = .next ((stackFault i s).elim ((handled i s).advance (opcodeMap i.mnemonic))
      fun b => s.raise (.stackBounds b)) := by
  cases i
  case int | iret => cases hw
  case push ra =>
    by_cases hs : s.sp = 0
    · simp [exec, execPush, stackFault, State.push_error, hs]
    · simp only [exec, execPush, stackFault, State.push_ok hs, if_neg hs]; rfl
  case call ra =>
    by_cases hs : s.sp = 0
    · simp [exec, execCall, stackFault, callThrough_error, hs]
    · simp only [exec, execCall, stackFault, callThrough_ok hs, if_neg hs]; rfl
  case pop ra =>
    by_cases hs : Config.spTop ≤ s.sp
    · simp [exec, execPop, stackFault, popInto_empty, hs]
    · by_cases hv : ra = Config.spReg ∧ Config.spTop ≤ s.rd s.sp
      · obtain ⟨rfl, hv⟩ := hv
        simp [exec, execPop, stackFault, popInto_leaves (BitVec.not_le.1 hs) hv, hs, hv]
      · have hv' : ra = Config.spReg → s.rd s.sp < Config.spTop := fun e => BitVec.not_le.1 fun hle => hv ⟨e, hle⟩
        simp only [exec, execPop, stackFault, popInto_ok (BitVec.not_le.1 hs) hv', if_neg hs, if_neg hv]; rfl
  case ret =>
    by_cases hs : Config.spTop ≤ s.sp
    · simp [exec, execRet, stackFault, returnFrom_error, hs]
    · simp only [exec, execRet, stackFault, returnFrom_ok (BitVec.not_le.1 hs), if_neg hs]; rfl
  all_goals rfl

/-- A reserved slot acts as an invalid opcode byte (R82). -/
theorem exec_reserved {i : Instr} (hw : i.wellFormed = false) (s : State) :
    exec i s = .next (s.invalidInstruction (opcodeMap i.mnemonic)) := by
  cases i
  case int | iret => rfl
  all_goals cases hw

/-- Only a stack instruction raises, and only with a byte out of the stack's range (R92). -/
theorem stackFault_eq_some {i : Instr} {s : State} {b : Byte} (h : stackFault i s = some b) :
    i.mnemonic ∈ [Mnemonic.push, .pop, .call, .ret] ∧ (b = 0 ∨ Config.spTop ≤ b) := by
  cases i
  case push | call | pop | ret => grind [stackFault, Instr.mnemonic]
  all_goals cases h

/-- Whether a meaning raises depends on memory alone. -/
theorem stackFault_congr (i : Instr) {s u : State} (h : u.mem = s.mem) : stackFault i u = stackFault i s := by
  cases u
  cases h
  cases i <;> rfl

@[simp] theorem wellFormed_withOperands (m : Mnemonic) (a b : Byte) : (m.withOperands a b).wellFormed = !m.reserved := by
  cases m <;> rfl

/-- The look-up finds a row exactly by its byte (R53, R55). -/
theorem lookup_opcodeMap_eq_some {ir : Byte} {m : Mnemonic} : lookup opcodeMap ir = some m ↔ opcodeMap m = ir :=
  ⟨opcode_of_lookup, fun h => h ▸ lookup_opcode opcodeMap_distinct m⟩

/-- No two rows share a byte (R55). -/
theorem opcodeMap_injective : Function.Injective opcodeMap := fun m _ h =>
  Option.some.inj ((lookup_opcode opcodeMap_distinct m).symm.trans (lookup_opcodeMap_eq_some.2 h.symm))

/-- The invalid bytes in the table are those of the two slots (R58). -/
theorem isInvalid_opcode {m : Mnemonic} : isInvalid (opcodeMap m) ↔ m.reserved = true := by
  refine ⟨fun h => by_contra fun hm => h m (by simpa using hm) rfl, fun h n hn he => ?_⟩
  rw [opcodeMap_injective he, h] at hn
  cases hn

/-! ## DIV and MOD: frame and commutation -/

@[simp] theorem aluDivide_pc (g : Byte → Byte → Byte) (report : PcWord → DiagEvent) (ra rb : Byte) (s : State) :
    (aluDivide g report ra rb s).pc = s.pc := by
  unfold aluDivide; split <;> rfl

@[simp] theorem aluDivide_fl (g : Byte → Byte → Byte) (report : PcWord → DiagEvent) (ra rb : Byte) (s : State) :
    (aluDivide g report ra rb s).fl = s.fl := by
  unfold aluDivide; split <;> rfl

/-- A change of the state that keeps the divisor and commutes with both branches of a division commutes with it. -/
theorem aluDivide_commute {g : Byte → Byte → Byte} {report : PcWord → DiagEvent} {ra rb : Byte} {s : State}
    {e : State → State} (hrd : (e s).rd rb = s.rd rb)
    (hzero : ((e s).emitDiag (report (e s).pc)).halt = e (s.emitDiag (report s.pc)).halt)
    (hbinary : aluBinary g ra rb (e s) = e (aluBinary g ra rb s)) :
    aluDivide g report ra rb (e s) = e (aluDivide g report ra rb s) := by
  by_cases h : s.rd rb = 0
  · simp only [aluDivide, hrd, if_pos h, hzero]
  · simp only [aluDivide, hrd, if_neg h, hbinary]

/-! ## The cycle as a function of the state

The branch a cycle takes depends on memory and the pc alone, so that two states which agree on these run the same
function of the state. Frames follow from that function, noninterference from how it commutes with a change of a field. -/

/-- What decides the branch of a cycle is the same. -/
structure State.SameView (s u : State) : Prop where
  mem : u.mem = s.mem
  pc : u.pc = s.pc
  run : u.run = s.run

section
variable {s u : State} (h : s.SameView u)
include h

theorem State.SameView.canFetch : u.canFetch ↔ s.canFetch := by simp [State.canFetch, h.pc]
theorem State.SameView.opcodeAt : u.opcodeAt = s.opcodeAt := by simp [State.opcodeAt, h.mem, h.pc]
theorem State.SameView.operandAt : u.operandAt = s.operandAt := by simp [State.operandAt, h.mem, h.pc]
theorem State.SameView.operandBAt : u.operandBAt = s.operandBAt := by simp [State.operandBAt, h.mem, h.pc]

end

/-- The faults a cycle that starts in `s` can raise (R66, R92); a load overflow is no fault of a cycle (R41). -/
def State.CanRaise (s : State) : Fault → Prop
  | .outOfBoundsAddress a => 254 ≤ s.pc.toNat ∧ a = max 256 s.pc.toNat
  | .stackBounds b =>
    (∃ m ∈ [Mnemonic.push, .pop, .call, .ret], lookup opcodeMap s.opcodeAt = some m) ∧ (b = 0 ∨ Config.spTop ≤ b)
  | .loadOverflow _ => False

/-- The functions a cycle that starts in `s` can run: a raise, the report of an invalid opcode byte, or the handler of the
fetched instruction with the advance step. -/
inductive CycleRuns (s : State) : (State → State) → Prop where
  | raise (c : Fault) (hc : s.CanRaise c) : CycleRuns s fun u => u.raise c
  | report (hp : s.canFetch) (hi : isInvalid s.opcodeAt) :
    CycleRuns s fun u => u.latched.invalidInstruction s.opcodeAt
  | handle (m : Mnemonic) (hp : s.canFetch) (hm : opcodeMap m = s.opcodeAt) (hr : m.reserved = false) :
    CycleRuns s fun u => (handled (m.withOperands s.operandAt s.operandBAt) u.latched).advance (opcodeMap m)

theorem step_of_fetchFault {s u : State} (hr : s.run = .running) (hp : ¬s.canFetch) (hu : s.SameView u) :
    step u = .next (u.raise (.outOfBoundsAddress (max 256 s.pc.toNat))) := by
  have hp' : 254 ≤ u.pc.toNat := by rw [hu.pc]; omega
  rw [step_running (hu.run.trans hr), cycle_fetchFault hp', hu.pc]

theorem step_of_invalid {s u : State} (hr : s.run = .running) (hp : s.canFetch)
    (hl : lookup opcodeMap s.opcodeAt = none) (hu : s.SameView u) :
    step u = .next (u.latched.invalidInstruction s.opcodeAt) := by
  rw [step_running (hu.run.trans hr), cycle_invalid (hu.canFetch.2 hp) (hu.opcodeAt ▸ hl), hu.opcodeAt]

theorem step_of_valid {s u : State} (hr : s.run = .running) (hp : s.canFetch) {m : Mnemonic}
    (hl : lookup opcodeMap s.opcodeAt = some m) (hu : s.SameView u) :
    step u = exec (m.withOperands s.operandAt s.operandBAt) u.latched := by
  rw [step_running (hu.run.trans hr), cycle_valid (hu.canFetch.2 hp) (hu.opcodeAt ▸ hl), hu.operandAt, hu.operandBAt]

/-- A step of a RUNNING machine runs one of these functions, in every state with the same memory and pc. -/
theorem exists_cycleRuns {s : State} (hr : s.run = .running) :
    ∃ f, CycleRuns s f ∧ ∀ u, s.SameView u → step u = .next (f u) := by
  by_cases hp : s.canFetch
  case neg =>
    have hp' : 254 ≤ s.pc.toNat := by omega
    exact ⟨_, .raise (.outOfBoundsAddress _) ⟨hp', rfl⟩, fun u hu => step_of_fetchFault hr hp hu⟩
  cases hl : lookup opcodeMap s.opcodeAt with
  | none => exact ⟨_, .report hp fun m _ => lookup_eq_none.1 hl m, fun u hu => step_of_invalid hr hp hl hu⟩
  | some m =>
    have hm := opcode_of_lookup hl
    have hw := wellFormed_withOperands m s.operandAt s.operandBAt
    cases hres : m.reserved with
    | true =>
      refine ⟨_, .report hp (hm ▸ isInvalid_opcode.2 hres), fun u hu => ?_⟩
      rw [step_of_valid hr hp hl hu, exec_reserved (by simp [hw, hres]), mnemonic_withOperands, hm]
    | false =>
      have hexec := exec_wellFormed (i := m.withOperands s.operandAt s.operandBAt) (by simp [hw, hres])
      cases hf : stackFault (m.withOperands s.operandAt s.operandBAt) s with
      | some b =>
        obtain ⟨hstack, hb⟩ := stackFault_eq_some hf
        rw [mnemonic_withOperands] at hstack
        refine ⟨_, .raise (.stackBounds b) ⟨⟨m, hstack, hl⟩, hb⟩, fun u hu => ?_⟩
        rw [step_of_valid hr hp hl hu, hexec, stackFault_congr _ (u := u.latched) hu.mem, hf]
        rfl
      | none =>
        refine ⟨_, .handle m hp hm hres, fun u hu => ?_⟩
        rw [step_of_valid hr hp hl hu, hexec, stackFault_congr _ (u := u.latched) hu.mem, hf, mnemonic_withOperands]
        rfl

/-- The inversion of a step: the function its cycle runs, in `s` itself and in every state with the same memory and pc. -/
theorem cycleRuns_of_step {s t : State} (hr : s.run = .running) (h : step s = .next t) :
    ∃ f, CycleRuns s f ∧ t = f s ∧ ∀ u, s.SameView u → step u = .next (f u) := by
  obtain ⟨f, hf, hstep⟩ := exists_cycleRuns hr
  exact ⟨f, hf, Host.Outcome.next.inj (h.symm.trans (hstep s ⟨rfl, rfl, rfl⟩)), hstep⟩

end Sys2Proof.Machine

namespace Sys2Proof.Machine

/-! ## The pc after a cycle (R17) -/

/-- The table's opcodes with P = 0 leave the pc to the advance step (R71). -/
theorem handled_pc_of_not_setsPc {m : Mnemonic} (h : setsPc (opcodeMap m) = false) (a b : Byte) (s : State) :
    (handled (m.withOperands a b) s).pc = s.pc := by
  cases m
  case jmp | call | ret | jeq | jne | jgt | jge | jlt | jle => cases h
  case div | mod => exact aluDivide_pc ..
  all_goals rfl

/-- The operand count is two bits wide (R51). -/
theorem operandCount_eq (ir : Byte) : operandCount ir = (ir.extractLsb' 6 2).toNat := by
  simp only [operandCount, BitVec.toNat_ushiftRight, BitVec.extractLsb'_toNat]
  have := ir.isLt
  omega

theorem operandCount_le (ir : Byte) : operandCount ir ≤ 3 := by
  rw [operandCount_eq]
  have := (ir.extractLsb' 6 2).isLt
  omega

/-- The advance step of a cycle that was fetched does not wrap (R16, R66). -/
theorem State.toNat_advance_pc {s : State} {ir : Byte} (hp : s.canFetch) (hs : setsPc ir = false) :
    (s.advance ir).pc.toNat = s.pc.toNat + operandCount ir + 1 := by
  have hn := operandCount_le ir
  simp only [State.canFetch] at hp
  simp only [State.advance_pc, hs, Bool.false_eq_true, if_false, BitVec.toNat_add, BitVec.toNat_ofNat]
  omega

theorem State.advance_pc_of_setsPc (s : State) {ir : Byte} (hs : setsPc ir = true) : (s.advance ir).pc = s.pc :=
  if_pos hs

theorem State.toNat_target (s : State) (r : Byte) : (s.target r).toNat = (s.rd r).toNat := by
  have := (s.rd r).isLt
  simp only [State.target, BitVec.toNat_setWidth]
  omega

/-- Where a conditional jump that was fetched goes (R100). -/
theorem toNat_jumpIf_pc {s : State} (hp : s.canFetch) (taken : Bool) (ra : Byte) :
    (jumpIf taken ra s).pc.toNat = if taken then (s.rd ra).toNat else s.pc.toNat + 2 := by
  simp only [State.canFetch] at hp
  cases taken
  · simp only [jumpIf, State.setPc_pc, Bool.false_eq_true, if_false, BitVec.toNat_add]
    simp; omega
  · exact s.toNat_target ra

/-- The opcodes with P = 0 and their operand counts (R51, R56). -/
theorem advances_by_zero : ∀ m ∈ [Mnemonic.nop, .hlt],
    setsPc (opcodeMap m) = false ∧ operandCount (opcodeMap m) = 0 := by decide

theorem advances_by_one : ∀ m ∈ [Mnemonic.push, .pop, .prn, .pra, .inc, .dec, .not],
    setsPc (opcodeMap m) = false ∧ operandCount (opcodeMap m) = 1 := by decide

theorem advances_by_two :
    ∀ m ∈ [Mnemonic.ldi, .ld, .st, .add, .sub, .mul, .div, .mod, .and, .or, .xor, .shl, .shr, .cmp],
      setsPc (opcodeMap m) = false ∧ operandCount (opcodeMap m) = 2 := by decide

/-- A handler with P = 0 and the advance step move the pc by N + 1 (R71). -/
theorem toNat_pc_of_not_setsPc {s : State} {m : Mnemonic} (hp : s.canFetch) (hs : setsPc (opcodeMap m) = false)
    (a b : Byte) :
    ((handled (m.withOperands a b) s).advance (opcodeMap m)).pc.toNat = s.pc.toNat + operandCount (opcodeMap m) + 1 := by
  have hpc := handled_pc_of_not_setsPc hs a b s
  rw [State.toNat_advance_pc (by simpa [State.canFetch, hpc] using hp) hs, hpc]

/-- Only the reserved slots are in the table and invalid (R58). -/
theorem reserved_of_isInvalid {m : Mnemonic} {ir : Byte} (hm : opcodeMap m = ir) (hi : isInvalid ir) :
    m.reserved = true := isInvalid_opcode.1 (hm ▸ hi)

/-- Settles O13, by the function the cycle runs: the advance step where P is 0, the handler's own pc where P is 1. -/
theorem pcAfterEveryCycle : Obligations.PcAfterEveryCycle := by
  intro s t hr hp hstep hnf
  obtain ⟨f, hf, rfl, -⟩ := cycleRuns_of_step hr hstep
  cases hf with
  | raise c => exact absurd rfl (hnf c)
  | report hp hi =>
    refine ⟨fun m hl => ?_, fun _ hP => ?_, fun _ hP => State.advance_pc_of_setsPc _ hP⟩
    · have hres := reserved_of_isInvalid (opcode_of_lookup hl) hi
      cases m
      case int | iret => simp
      all_goals cases hres
    · rw [← operandCount_eq]
      exact State.toNat_advance_pc (s := s.latched.emitDiag _) hp hP
  | handle m hp hm hres =>
    have hvalid : ¬isInvalid s.opcodeAt := fun hi => by simp [reserved_of_isInvalid hm hi] at hres
    refine ⟨fun n hl => ?_, fun hi => absurd hi hvalid, fun hi => absurd hi hvalid⟩
    obtain rfl : m = n := opcodeMap_injective (hm.trans (opcode_of_lookup hl).symm)
    have hstraight := toNat_pc_of_not_setsPc (s := s.latched) (m := m) hp (a := s.operandAt) (b := s.operandBAt)
    have hjump := fun taken => toNat_jumpIf_pc (s := s.latched) hp taken s.operandAt
    refine ⟨fun h => ?_, fun h => ?_, fun h => ?_, fun h => ?_, ?_, ?_, ?_, ?_, ?_, ?_, ?_⟩
    · obtain ⟨hP, hN⟩ := advances_by_zero m h
      simpa [hN] using hstraight hP
    · obtain ⟨hP, hN⟩ := advances_by_one m h
      simpa [hN] using hstraight hP
    · obtain ⟨hP, hN⟩ := advances_by_two m h
      simpa [hN] using hstraight hP
    · simp only [List.mem_cons, List.not_mem_nil, or_false] at h
      obtain rfl | rfl := h
      · exact s.toNat_target _
      · exact State.toNat_target _ _
    · rintro rfl; exact hjump s.flE
    · rintro rfl; exact (hjump (!s.flE)).trans (by cases s.flE <;> rfl)
    · rintro rfl; exact hjump s.flG
    · rintro rfl; exact hjump (s.flG || s.flE)
    · rintro rfl; exact hjump s.flL
    · rintro rfl; exact hjump (s.flL || s.flE)
    · rintro rfl; exact s.toNat_target s.sp

end Sys2Proof.Machine

namespace Sys2Proof.Machine

/-! ## The flags (R21) -/

/-- No handler but CMP's writes the flags. -/
theorem handled_fl {m : Mnemonic} (h : m ≠ .cmp) (a b : Byte) (s : State) :
    (handled (m.withOperands a b) s).fl = s.fl := by
  cases m
  case cmp => exact absurd rfl h
  case div | mod => exact aluDivide_fl ..
  all_goals rfl

/-- A comparison sets exactly one flag (R131). -/
theorem compareFlags_oneHot (a b : Byte) :
    compareFlags a b = 0b001 ∨ compareFlags a b = 0b010 ∨ compareFlags a b = 0b100 := by
  obtain h | h | h := Nat.lt_trichotomy a.toNat b.toNat
  · simp [compareFlags, h, h.ne, h.not_gt]
  · simp [compareFlags, h]
  · simp [compareFlags, h, h.ne', h.not_gt]

/-- A cycle that dispatches on CMP raises nothing and is no report: its handler runs. -/
theorem CycleRuns.eq_of_cmp {s : State} {f : State → State} (hf : CycleRuns s f) (hp : s.canFetch)
    (hl : lookup opcodeMap s.opcodeAt = some .cmp) :
    ∀ u, f u = (handled (.cmp s.operandAt s.operandBAt) u.latched).advance (opcodeMap .cmp) := by
  cases hf with
  | raise c hc =>
    cases c with
    | outOfBoundsAddress a =>
      have hpc := hc.1
      omega
    | stackBounds b =>
      obtain ⟨⟨m, hm, hl'⟩, -⟩ := hc
      rw [hl, Option.some.injEq] at hl'
      subst hl'
      simp at hm
    | loadOverflow => exact hc.elim
  | report _ hi => cases reserved_of_isInvalid (opcode_of_lookup hl) hi
  | handle m _ hm =>
    obtain rfl : m = .cmp := opcodeMap_injective (hm.trans (opcode_of_lookup hl).symm)
    exact fun _ => rfl

/-- Settles O14: of the functions a cycle can run only the handler of CMP writes the flags. -/
theorem flagsChangeOnlyByCompare : Obligations.FlagsChangeOnlyByCompare := by
  intro s t hr hstep
  obtain ⟨f, hf, rfl, -⟩ := cycleRuns_of_step hr hstep
  refine ⟨fun hne => ?_, fun hp hl => ?_⟩
  · cases hf with
    | raise | report => exact absurd rfl hne
    | handle m hp hm =>
      have hcmp : m = .cmp := by_contra fun h => hne (handled_fl h _ _ s.latched)
      exact ⟨hp, lookup_opcodeMap_eq_some.2 (hcmp ▸ hm)⟩
  · rw [hf.eq_of_cmp hp hl]
    exact compareFlags_oneHot _ _

/-- Only CMP and the conditional jumps read or write the flags: every other handler commutes with setting them. -/
theorem handled_setFl {m : Mnemonic} (h : m ∉ [Mnemonic.jeq, .jne, .jgt, .jge, .jlt, .jle, .cmp]) (a b : Byte)
    (s : State) (fl : BitVec 3) :
    handled (m.withOperands a b) (s.setFl fl) = (handled (m.withOperands a b) s).setFl fl := by
  cases m
  case jeq | jne | jgt | jge | jlt | jle | cmp => exact absurd (by decide) h
  case div | mod => exact aluDivide_commute (e := (State.setFl · fl)) rfl rfl rfl
  all_goals rfl

/-- The cycle commutes with setting the flags unless it dispatches on CMP or a conditional jump. -/
theorem CycleRuns.setFl {s : State} {f : State → State} (hf : CycleRuns s f)
    (h : s.canFetch → ∀ m ∈ [Mnemonic.jeq, .jne, .jgt, .jge, .jlt, .jle, .cmp], lookup opcodeMap s.opcodeAt ≠ some m)
    (fl : BitVec 3) : f (s.setFl fl) = (f s).setFl fl := by
  cases hf with
  | raise | report => rfl
  | handle m hp hm =>
    have hm' : m ∉ [Mnemonic.jeq, .jne, .jgt, .jge, .jlt, .jle, .cmp] := fun hmem =>
      h hp m hmem (lookup_opcodeMap_eq_some.2 hm)
    exact congrArg (State.advance · (opcodeMap m)) (handled_setFl hm' s.operandAt s.operandBAt s.latched fl)

/-- Settles O15: the flags are not part of the view that picks the function of the cycle, and each function but those of
CMP and the conditional jumps commutes with setting them. -/
theorem flagsReadOnlyByConditionalJumps : Obligations.FlagsReadOnlyByConditionalJumps := by
  intro s t fl hr hstep
  obtain ⟨f, hf, rfl, hview⟩ := cycleRuns_of_step hr hstep
  have hfl : step (s.setFl fl) = .next (f (s.setFl fl)) := hview _ ⟨rfl, rfl, rfl⟩
  refine ⟨fun hpc => ?_, fun hm => ?_, fun hp hl => ?_⟩
  · exact hfl.trans (congrArg _ (hf.setFl (fun hp => by omega) fl))
  · exact hfl.trans (congrArg _ (hf.setFl (fun _ => hm) fl))
  · rw [hf.eq_of_cmp hp hl] at hfl ⊢
    exact hfl

/-! ## The event streams (R23) -/

/-- `s` with other event streams. -/
def State.setStreams (s : State) (out : List OutEvent) (diag : List DiagEvent) : State :=
  { s with out := out, diag := diag }

/-- In `s` the function `f` appends at most one event to each stream, the same ones whatever the streams hold, and reads
neither. -/
def EmitsUnread (f : State → State) (s : State) : Prop :=
  ∃ eo ed, eo.length ≤ 1 ∧ ed.length ≤ 1 ∧
    ∀ out diag, f (s.setStreams out diag) = (f s).setStreams (out ++ eo) (diag ++ ed)

theorem EmitsUnread.of_none {f : State → State} {s : State}
    (h : ∀ out diag, f (s.setStreams out diag) = (f s).setStreams out diag) : EmitsUnread f s :=
  ⟨[], [], by decide, by decide, fun out diag => by simpa using h out diag⟩

theorem EmitsUnread.of_out {f : State → State} {s : State} (e : OutEvent)
    (h : ∀ out diag, f (s.setStreams out diag) = (f s).setStreams (out ++ [e]) diag) : EmitsUnread f s :=
  ⟨[e], [], by simp, by simp, fun out diag => by simpa using h out diag⟩

theorem EmitsUnread.of_diag {f : State → State} {s : State} (e : DiagEvent)
    (h : ∀ out diag, f (s.setStreams out diag) = (f s).setStreams out (diag ++ [e])) : EmitsUnread f s :=
  ⟨[], [e], by simp, by simp, fun out diag => by simpa using h out diag⟩

/-- The streams of `s` itself grow by those events. -/
theorem EmitsUnread.appends {f : State → State} {s : State} (h : EmitsUnread f s) :
    ∃ eo ed, eo.length ≤ 1 ∧ ed.length ≤ 1 ∧ (f s).out = s.out ++ eo ∧ (f s).diag = s.diag ++ ed ∧
      ∀ out diag, f (s.setStreams out diag) = (f s).setStreams (out ++ eo) (diag ++ ed) := by
  obtain ⟨eo, ed, ho, hd, hf⟩ := h
  have hs : f s = (f s).setStreams (s.out ++ eo) (s.diag ++ ed) := hf s.out s.diag
  exact ⟨eo, ed, ho, hd, congrArg State.out hs, congrArg State.diag hs, hf⟩

/-- A division emits its report where the divisor is zero, and nothing elsewhere (R121). -/
theorem aluDivide_emitsUnread (g : Byte → Byte → Byte) (report : PcWord → DiagEvent) (ra rb : Byte) (s : State) :
    EmitsUnread (aluDivide g report ra rb) s := by
  have hrd (out diag) : (s.setStreams out diag).rd rb = s.rd rb := rfl
  by_cases h : s.rd rb = 0
  · exact .of_diag (report s.pc) fun out diag => by simp only [aluDivide, hrd, if_pos h]; rfl
  · exact .of_none fun out diag => by simp only [aluDivide, hrd, if_neg h]; rfl

/-- Every handler: PRN and PRA emit to OUT, DIV and MOD may report to DIAG, and no other touches a stream. -/
theorem handled_emitsUnread (i : Instr) (s : State) : EmitsUnread (handled i) s := by
  cases i
  case prn ra => exact .of_out (.prn (s.rd ra)) fun _ _ => rfl
  case pra ra => exact .of_out (.pra (s.rd ra)) fun _ _ => rfl
  case div ra rb => exact aluDivide_emitsUnread aluDiv .divideByZero ra rb s
  case mod ra rb => exact aluDivide_emitsUnread aluMod .moduloByZero ra rb s
  all_goals exact .of_none fun _ _ => rfl

/-- The cycle of every RUNNING machine appends at most one event to each stream and reads neither. -/
theorem CycleRuns.emitsUnread {s : State} {f : State → State} (hf : CycleRuns s f) : EmitsUnread f s := by
  cases hf with
  | raise => exact .of_none fun _ _ => rfl
  | report => exact .of_diag (.invalidInstruction s.opcodeAt) fun _ _ => rfl
  | handle m =>
    obtain ⟨eo, ed, ho, hd, hh⟩ := handled_emitsUnread (m.withOperands s.operandAt s.operandBAt) s.latched
    exact ⟨eo, ed, ho, hd, fun out diag => congrArg (State.advance · _) (hh out diag)⟩

/-- Settles O16: the streams are not part of the view that picks the function of the cycle. -/
theorem streamsAppendOnlyAndUnread : Obligations.StreamsAppendOnlyAndUnread := by
  intro s t out diag hr hstep
  obtain ⟨f, hf, rfl, hview⟩ := cycleRuns_of_step hr hstep
  obtain ⟨eo, ed, ho, hd, hout, hdiag, happ⟩ := hf.emitsUnread.appends
  refine ⟨eo, ed, ho, hd, hout, hdiag, ?_⟩
  exact (hview (s.setStreams out diag) ⟨rfl, rfl, rfl⟩).trans (congrArg Host.Outcome.next (happ out diag))

/-! ## The latches and the model's counter (R18, R19) -/

/-- `s` with other latches. -/
def State.setLatches (s : State) (ir opa opb : Byte) : State := { s with ir := ir, opa := opa, opb := opb }

/-- `s` with another count of free values drawn. -/
def State.setFreeCount (s : State) (n : Nat) : State := { s with freeCount := n }

/-- A cycle loads the latches or, where it faults, draws them: it never reads them. -/
theorem CycleRuns.setLatches {s : State} {f : State → State} (hf : CycleRuns s f) (ir opa opb : Byte) :
    f (s.setLatches ir opa opb) = f s := by
  cases hf <;> rfl

theorem handled_setFreeCount (i : Instr) (s : State) (n : Nat) :
    handled i (s.setFreeCount n) = (handled i s).setFreeCount n := by
  cases i
  case div | mod => exact aluDivide_commute (e := (State.setFreeCount · n)) rfl rfl rfl
  all_goals rfl

/-- A cycle that does not fault leaves the counter alone and does not read it. -/
theorem CycleRuns.setFreeCount {s : State} {f : State → State} (hf : CycleRuns s f)
    (hnf : ∀ c, (f s).run ≠ .faulted c) (n : Nat) : f (s.setFreeCount n) = (f s).setFreeCount n := by
  cases hf with
  | raise c => exact absurd rfl (hnf c)
  | report => rfl
  | handle m =>
    have hh := handled_setFreeCount (m.withOperands s.operandAt s.operandBAt) s.latched n
    exact congrArg (State.advance · (opcodeMap m)) hh

/-- Settles O19: neither the latches nor the counter picks the function of the cycle, no function reads the latches, and
only a raise reads the counter. -/
theorem latchesAreNeverReadBeforeFetch : Obligations.LatchesAreNeverReadBeforeFetch := by
  intro s ir opa opb n hr
  obtain ⟨f, hf, hview⟩ := exists_cycleRuns hr
  have hs : step s = .next (f s) := hview s ⟨rfl, rfl, rfl⟩
  refine ⟨?_, fun t hstep hnf => ?_⟩
  · rw [hs, ← hf.setLatches ir opa opb]
    exact hview (s.setLatches ir opa opb) ⟨rfl, rfl, rfl⟩
  · obtain rfl : f s = t := Host.Outcome.next.inj (hs.symm.trans hstep)
    exact (hview (s.setFreeCount n) ⟨rfl, rfl, rfl⟩).trans (congrArg _ (hf.setFreeCount hnf n))

/-! ## The cells a cycle writes (R15, R32) -/

/-- The cells of the stores of an instruction: its destination operand, the cell a ST points to, SP and the pushed slot. -/
theorem cell_of_mem_stores {s : State} {m : Mnemonic} {x v : Byte} (h : (x, v) ∈ s.stores m) :
    (m ∈ [Mnemonic.ldi, .ld, .pop, .add, .sub, .mul, .div, .mod, .and, .or, .xor, .not, .shl, .shr, .inc, .dec] ∧
        x = s.operandAt) ∨
      (m = .st ∧ x = s.rd s.operandAt) ∨ (m ∈ [Mnemonic.push, .pop, .call, .ret] ∧ x = 7) ∨
      (m ∈ [Mnemonic.push, .call] ∧ x = s.sp - 1) := by
  cases m
  case push | call | pop | div | mod => grind [State.stores]
  all_goals simp_all [State.stores]

/-- Settles O21: the raise and the report leave memory alone, and a handler stores what `State.stores` lists. -/
theorem everyCycleWritesOnlyItsDestination : Obligations.EveryCycleWritesOnlyItsDestination := by
  intro s t x hr hstep hne
  obtain ⟨f, hf, rfl, -⟩ := cycleRuns_of_step hr hstep
  cases hf with
  | raise | report => exact absurd rfl hne
  | handle m _ hm =>
    have hstored : ∃ v, (x, v) ∈ s.stores m := by
      by_contra hno
      exact hne (rd_handled_of_not_stored s m fun v hv => hno ⟨v, hv⟩)
    obtain ⟨v, hv⟩ := hstored
    exact ⟨m, lookup_opcodeMap_eq_some.2 hm, cell_of_mem_stores hv⟩

end Sys2Proof.Machine

namespace Sys2Proof.Machine

/-! ## The invariant (R16, R21, R66) -/

theorem State.wf_aluDivide {s : State} (h : s.mem.wf) (g : Byte → Byte → Byte) (report : PcWord → DiagEvent)
    (ra rb : Byte) : (aluDivide g report ra rb s).mem.wf := by
  unfold aluDivide
  split
  · exact h
  · exact State.wf_wr h ..

/-- Every handler keeps the canonical form: it writes no cell, one, or, on the stack, two. -/
theorem handled_wf {s : State} (h : s.mem.wf) (i : Instr) : (handled i s).mem.wf := by
  cases i
  case div | mod => exact State.wf_aluDivide h ..
  case push | pop | call => exact State.wf_wr (State.wf_wr h _ _) _ _
  case ret | ldi | ld | st | add | sub | mul | and | or | xor | not | inc | dec | shl | shr =>
    exact State.wf_wr h _ _
  all_goals exact h

/-- A handler leaves RUN as it is or halts the machine. -/
theorem handled_run (i : Instr) (s : State) : (handled i s).run = s.run ∨ (handled i s).run = .halted := by
  cases i
  case hlt => exact .inr rfl
  case div | mod =>
    simp only [handled, aluDivide]
    split
    · exact .inr rfl
    · exact .inl rfl
  all_goals exact .inl rfl

/-- The opcodes with P = 1 leave the pc at a byte, or at pc + 2 (R71, R95, R96, R97, R100). -/
theorem toNat_handled_pc_lt {m : Mnemonic} {s : State} (hs : setsPc (opcodeMap m) = true) (hr : m.reserved = false)
    (hp : s.canFetch) (a b : Byte) : (handled (m.withOperands a b) s).pc.toNat < 256 := by
  have hbyte (t : State) (r : Byte) : (t.target r).toNat < 256 := by
    rw [State.toNat_target]; exact (t.rd r).isLt
  have hjump (taken : Bool) (ra : Byte) : (jumpIf taken ra s).pc.toNat < 256 := by
    rw [toNat_jumpIf_pc hp]
    split
    · exact (s.rd ra).isLt
    · omega
  cases m
  case jmp => exact hbyte s a
  case call => exact hbyte _ a
  case ret => exact hbyte s s.sp
  case jeq | jne | jgt | jge | jlt | jle => exact hjump _ a
  case int | iret => cases hr
  all_goals cases hs

/-- The advance step after a fetch reaches 257 at most (R16). -/
theorem State.toNat_advance_pc_le {s : State} (hp : s.canFetch) (ir : Byte) : (s.advance ir).pc.toNat ≤ 257 := by
  cases hs : setsPc ir with
  | true => rw [s.advance_pc_of_setsPc hs]; omega
  | false =>
    have hn := operandCount_le ir
    rw [State.toNat_advance_pc hp hs]
    omega

/-- Every cycle leaves the pc in 0..257 (R16). -/
theorem CycleRuns.toNat_pc_le {s : State} {f : State → State} (hf : CycleRuns s f) (h : s.pc.toNat ≤ 257) :
    (f s).pc.toNat ≤ 257 := by
  cases hf with
  | raise => exact h
  | report hp => exact State.toNat_advance_pc_le (s := s.latched.emitDiag _) hp _
  | handle m hp _ hr =>
    cases hs : setsPc (opcodeMap m) with
    | true =>
      have hlt := toNat_handled_pc_lt (s := s.latched) hs hr hp s.operandAt s.operandBAt
      simp only [State.advance_pc_of_setsPc _ hs]
      omega
    | false =>
      have hpc := handled_pc_of_not_setsPc hs s.operandAt s.operandBAt s.latched
      exact State.toNat_advance_pc_le (by rw [State.canFetch, hpc]; exact hp) _

theorem CycleRuns.wf {s : State} {f : State → State} (hf : CycleRuns s f) (h : s.mem.wf) : (f s).mem.wf := by
  cases hf with
  | raise | report => exact h
  | handle m => exact handled_wf (s := s.latched) h _

/-- A comparison leaves legal flags, and every other cycle leaves the flags as they were (R21). -/
theorem CycleRuns.legalFlags {s : State} {f : State → State} (hf : CycleRuns s f) (h : legalFlags s.fl) :
    Machine.legalFlags (f s).fl := by
  cases hf with
  | raise | report => exact h
  | handle m =>
    by_cases hm : m = .cmp
    · subst hm
      exact .inr (compareFlags_oneHot _ _)
    · exact (handled_fl hm s.operandAt s.operandBAt s.latched).symm ▸ h

/-- A state that runs or has halted holds no fault. -/
theorem State.faultLegal_of_not_faulted {s : State} (h : s.run = .running ∨ s.run = .halted) : s.faultLegal := by
  obtain h | h := h <;> simp [State.faultLegal, h]

/-- A fault of a cycle is one that can arise (R66, R92). -/
theorem CycleRuns.faultLegal {s : State} {f : State → State} (hf : CycleRuns s f) (hr : s.run = .running) :
    (f s).faultLegal := by
  cases hf with
  | raise c hc =>
    cases c with
    | outOfBoundsAddress a => exact hc
    | stackBounds b => exact hc.2
    | loadOverflow => exact hc.elim
  | report => exact State.faultLegal_of_not_faulted (.inl hr)
  | handle m =>
    exact State.faultLegal_of_not_faulted ((handled_run _ s.latched).imp_left fun h => h.trans hr)

/-- Settles O29: a HALTED machine stays as it is, a FAULTED one has no next state, and the function a RUNNING machine's
cycle runs keeps each part of the invariant. -/
theorem everyStepKeepsTheInvariant : Obligations.EveryStepKeepsTheInvariant := by
  intro s t hinv hstep
  cases hr : s.run with
  | running =>
    obtain ⟨f, hf, rfl, -⟩ := cycleRuns_of_step hr hstep
    exact ⟨hf.wf hinv.wf, hf.toNat_pc_le hinv.pc_le, hf.legalFlags hinv.flags, hf.faultLegal hr⟩
  | halted =>
    simp only [step, hr, Host.Outcome.next.injEq] at hstep
    exact hstep ▸ hinv
  | faulted c => simp [step, hr] at hstep

/-- Settles O27. -/
theorem invariantHoldsAtReset : Obligations.InvariantHoldsAtReset :=
  ⟨Memory.wf_nil, Nat.zero_le _, .inl rfl, trivial⟩

/-! ## Canonical memories as sets of cells (R11) -/

/-- An address that no entry lists reads as its reset contents. -/
theorem Memory.read_of_not_listed {m : Memory} {a : Nat} (h : ∀ c ∈ m, c.1 ≠ a) : m.read a = Memory.background a := by
  induction m with
  | nil => rfl
  | cons c m ih =>
    rw [Memory.read_cons, if_neg (h c (by simp)), ih fun d hd => h d (by simp [hd])]

/-- In a rising memory each entry is what its address reads as. -/
theorem Memory.read_of_mem {m : Memory} (h : m.Pairwise fun c d => c.1 < d.1) {c : Host.Cell} (hc : c ∈ m) :
    m.read c.1 = c.2 := by
  induction m with
  | nil => cases hc
  | cons d m ih =>
    rw [List.pairwise_cons] at h
    obtain rfl | hc := List.mem_cons.1 hc
    · exact if_pos rfl
    · rw [Memory.read_cons, if_neg (h.1 c hc).ne, ih h.2 hc]

/-- The entries of a canonical memory are exactly the addresses that read otherwise than at reset, with what they read as. -/
theorem Memory.mem_iff_read {m : Memory} (h : m.wf) {c : Host.Cell} :
    c ∈ m ↔ m.read c.1 = c.2 ∧ c.2 ≠ Memory.background c.1 := by
  refine ⟨fun hc => ⟨Memory.read_of_mem h.1 hc, (h.2 c hc).2⟩, fun ⟨hread, hne⟩ => ?_⟩
  by_contra hc
  refine hne (hread ▸ Memory.read_of_not_listed fun d hd he => ?_)
  have hd2 := Memory.read_of_mem h.1 hd
  rw [he, hread] at hd2
  exact hc (by rwa [Prod.ext he hd2.symm] at hd)

/-- A canonical memory lists no address outside 0..255. -/
theorem Memory.read_of_memSize_le {m : Memory} (h : m.wf) {a : Nat} (ha : Config.memSize ≤ a) :
    m.read a = Memory.background a :=
  Memory.read_of_not_listed fun c hc => ((h.2 c hc).1.trans_le ha).ne

/-- Settles O25: two canonical memories that read alike have the same entries, and both list them in rising order. -/
theorem canonicalMemoriesThatReadAlikeAreEqual : Obligations.CanonicalMemoriesThatReadAlikeAreEqual := by
  intro m n hm hn halike
  have hread (a : Nat) : m.read a = n.read a := by
    by_cases ha : a ≤ 255
    · exact halike a ha
    · have ha' : Config.memSize ≤ a := Nat.lt_of_not_le ha
      rw [Memory.read_of_memSize_le hm ha', Memory.read_of_memSize_le hn ha']
  have : Std.Antisymm fun c d : Host.Cell => c.1 < d.1 := ⟨fun _ _ h h' => absurd h' h.not_gt⟩
  have : Std.Irrefl fun c d : Host.Cell => c.1 < d.1 := ⟨fun c => lt_irrefl c.1⟩
  exact hm.1.eq_of_mem_iff hn.1 fun c => by rw [Memory.mem_iff_read hm, Memory.mem_iff_read hn, hread]

/-! ## Registers and reset (R12, R26) -/

/-- The cell of register `i` (R12). -/
theorem toNat_regCell (i : Fin 8) : (BitVec.ofNat 8 i.val).toNat = i.val := by
  rw [BitVec.toNat_ofNat]; omega

theorem State.reg_eq_read (s : State) (i : Fin 8) : s.reg i = s.mem.read i.val :=
  congrArg s.mem.read (toNat_regCell i)

theorem State.memRead_reg (s : State) (i : Fin 8) : s.memRead i.val = .ok (s.reg i) := by
  rw [s.memRead_ok (by omega), State.reg_eq_read]

/-- A write of the cell `i` is a write of register `i`. -/
theorem State.reg_wr_of_toNat {s : State} {i : Fin 8} {a : Byte} (ha : a.toNat = i.val) (v : Byte) :
    (s.wr a v).reg i = v := by
  rw [State.reg_eq_read, ← ha]
  exact Memory.read_write_same ..

/-- PUSH with SP one above register `i` completes and pushes into that register (R90). -/
theorem exec_push_reg {s : State} {i : Fin 8} {ra : Byte} (hsp : s.sp.toNat = i.val + 1) :
    ∃ t, exec (.push ra) s = .next t ∧ t.reg i = if ra = 7 then s.sp - 1 else s.rd ra := by
  have hslot : s.pushAddress.toNat = i.val := by
    have := i.isLt
    rw [State.pushAddress, BitVec.toNat_sub, hsp]
    simp; omega
  have hne : s.sp ≠ 0 := fun h => by simp [h] at hsp
  refine ⟨_, by rw [exec, execPush, State.push_ok hne, finish_ok], ?_⟩
  exact (State.reg_wr_of_toNat hslot _).trans (by rw [State.rd_wr]; rfl)

/-- An image that fits puts its byte `i` into register `i` (R40). -/
theorem State.reg_load {s : State} {img : List Byte} (hlen : img.length ≤ 256) {i : Fin 8} {v : Byte}
    (hv : img[i.val]? = some v) : (s.load img).reg i = v := by
  obtain ⟨hi, rfl⟩ := List.getElem?_eq_some_iff.1 hv
  rw [State.reg_eq_read, State.load, if_pos (show img.length ≤ Config.memSize from hlen)]
  simp [Memory.read_copyIn, Config.loadBase, hi]

/-- Settles O26: each write named is one of the cell `i`, which register `i` reads. -/
theorem registersAreTheFirstCells : Obligations.RegistersAreTheFirstCells := by
  intro s i
  refine ⟨s.memRead_reg i, fun v => ?_, fun ra rb hra => ?_, fun ra => exec_push_reg,
    fun img v hlen hv => State.reg_load hlen hv⟩
  · have hreg : (s.wr (BitVec.ofNat 8 i.val) v).reg i = v := State.reg_wr_of_toNat (toNat_regCell i) v
    exact ⟨_, rfl, hreg, (State.memRead_reg _ i).trans (congrArg _ hreg)⟩
  · exact ⟨_, rfl, State.reg_wr_of_toNat hra _⟩

/-- Memory at reset lists nothing: each cell reads as its reset contents. -/
theorem State.rd_reset (a : Byte) : State.reset.rd a = if a = 7 then 0xF4 else 0 := by
  have h : a.toNat = Config.spReg.toNat ↔ a = 7 := BitVec.toNat_inj
  simp only [State.rd, State.reset, Memory.read_nil, Memory.background, h, Config.spTop]

/-- Settles O30. -/
theorem resetValues : Obligations.ResetValues := by
  refine ⟨State.rd_reset, State.rd_reset 7, fun i hi => ?_, rfl, rfl, rfl, rfl, rfl⟩
  refine (State.rd_reset _).trans (if_neg fun h => hi ?_)
  rw [← toNat_regCell i, h]
  rfl

end Sys2Proof.Machine

namespace Sys2Proof.Machine

/-! ## What a cycle that does not fault leaves in the latches, the pc and memory (R39, R69) -/

theorem aluDivide_latches (g : Byte → Byte → Byte) (report : PcWord → DiagEvent) (ra rb : Byte) (s : State) :
    (aluDivide g report ra rb s).ir = s.ir ∧ (aluDivide g report ra rb s).opa = s.opa ∧
      (aluDivide g report ra rb s).opb = s.opb := by
  unfold aluDivide; split <;> exact ⟨rfl, rfl, rfl⟩

/-- No handler writes the latches. -/
theorem handled_latches (i : Instr) (s : State) :
    (handled i s).ir = s.ir ∧ (handled i s).opa = s.opa ∧ (handled i s).opb = s.opb := by
  cases i
  case div | mod => exact aluDivide_latches ..
  all_goals exact ⟨rfl, rfl, rfl⟩

theorem stores_of_reserved {m : Mnemonic} (h : m.reserved = true) (s : State) : s.stores m = [] := by
  cases m
  case int | iret => rfl
  all_goals cases h

namespace CycleRuns

variable {s : State} {f : State → State} (hf : CycleRuns s f) (hnf : ∀ c, (f s).run ≠ .faulted c)
include hf hnf

/-- The latches hold the bytes as they were fetched, whatever the cycle stored (R39). -/
theorem latches : (f s).ir = s.opcodeAt ∧ (f s).opa = s.operandAt ∧ (f s).opb = s.operandBAt := by
  cases hf with
  | raise c => exact absurd rfl (hnf c)
  | report => exact ⟨rfl, rfl, rfl⟩
  | handle m => exact handled_latches _ s.latched

/-- Where the fetched P is 0 the pc moves by the fetched N + 1 (R71). -/
theorem toNat_pc (hP : setsPc s.opcodeAt = false) : (f s).pc.toNat = s.pc.toNat + operandCount s.opcodeAt + 1 := by
  cases hf with
  | raise c => exact absurd rfl (hnf c)
  | report hp => exact State.toNat_advance_pc (s := s.latched.emitDiag _) hp hP
  | handle m hp hm =>
    rw [← hm] at hP ⊢
    exact toNat_pc_of_not_setsPc (s := s.latched) hp hP s.operandAt s.operandBAt

/-- A dispatched row is a slot, which is reported and stores nothing, or memory is as its handler leaves it (R68, R82). -/
theorem memory_of_lookup {m : Mnemonic} (hl : lookup opcodeMap s.opcodeAt = some m) :
    (s.stores m = [] ∧ KeepsMemory s (f s)) ∨
      ∀ x, (f s).rd x = (handled (m.withOperands s.operandAt s.operandBAt) s.latched).rd x := by
  cases hf with
  | raise c => exact absurd rfl (hnf c)
  | report _ hi => exact .inl ⟨stores_of_reserved (reserved_of_isInvalid (opcode_of_lookup hl) hi) s, fun _ => rfl⟩
  | handle n _ hn =>
    obtain rfl : n = m := opcodeMap_injective (hn.trans (opcode_of_lookup hl).symm)
    exact .inr fun _ => rfl

/-- Every store of the fetched operands is in memory after the cycle (R32). -/
theorem rd_of_mem_stores {m : Mnemonic} (hl : lookup opcodeMap s.opcodeAt = some m) {d v : Byte}
    (hd : (d, v) ∈ s.stores m) : (f s).rd d = v := by
  obtain ⟨hnil, -⟩ | hmem := hf.memory_of_lookup hnf hl
  · simp [hnil] at hd
  · exact (hmem d).trans (rd_handled_of_mem_stores s m hd)

/-- No other cell changes (R32). -/
theorem rd_of_not_stored {m : Mnemonic} (hl : lookup opcodeMap s.opcodeAt = some m) {x : Byte}
    (hx : ∀ v, (x, v) ∉ s.stores m) : (f s).rd x = s.rd x := by
  obtain ⟨-, hkeeps⟩ | hmem := hf.memory_of_lookup hnf hl
  · exact hkeeps x
  · exact (hmem x).trans (rd_handled_of_not_stored s m hx)

end CycleRuns

/-- Settles O22: a cycle leaves its stores in memory and the fetched bytes in the latches, and the latches the next cycle
leaves are what memory holds at its pc. -/
theorem storesReachTheNextFetchOnly : Obligations.StoresReachTheNextFetchOnly := by
  intro s t m hr hp hl hstep hnf
  obtain ⟨f, hf, rfl, -⟩ := cycleRuns_of_step hr hstep
  have hstored (d v) : (d, v) ∈ s.stores m → (f s).rd d = v := hf.rd_of_mem_stores hnf hl
  refine ⟨hf.latches hnf, hstored, fun x => hf.rd_of_not_stored hnf hl, hf.toNat_pc hnf, ?_⟩
  intro u htr htp hnext hnu d v hd
  obtain ⟨g, hg, rfl, -⟩ := cycleRuns_of_step htr hnext
  obtain ⟨hir, hopa, hopb⟩ := hg.latches hnu
  have hread : (f s).mem.read d.toNat = v := hstored d v hd
  exact ⟨fun h => by rw [hir, State.opcodeAt, ← h, hread], fun h => by rw [hopa, State.operandAt, ← h, hread],
    fun h => by rw [hopb, State.operandBAt, ← h, hread]⟩

/-! ## The access primitives (R30, R31) -/

/-- A read of any address after a write that completed: the written byte, or what the read answered before (R30). -/
theorem State.memRead_memWrite {s t : State} {a : Nat} {v : Byte} (h : s.memWrite a v = .ok t) (b : Nat) :
    t.memRead b = if b = a then .ok v else s.memRead b := by
  by_cases ha : a < 256
  case neg => simp [s.memWrite_error (Nat.le_of_not_lt ha) v] at h
  rw [s.memWrite_ok ha, Except.ok.injEq] at h
  subst h
  by_cases hb : b < 256
  · simp only [State.memRead_ok _ hb, Memory.read_write]
    split <;> rfl
  · have hba : b ≠ a := by omega
    rw [if_neg hba, State.memRead_error _ (Nat.le_of_not_lt hb), State.memRead_error _ (Nat.le_of_not_lt hb)]

/-- Settles O23: the access primitives answer what memory reads as, and memory at reset lists nothing. -/
theorem readReturnsTheLastWrite : Obligations.ReadReturnsTheLastWrite := by
  refine ⟨fun s a v ha => ?_, fun a ha => ?_⟩
  · have hw := s.memWrite_ok (Nat.lt_succ_of_le ha) v
    refine ⟨_, hw, ?_, fun b hb => ?_⟩
    · rw [State.memRead_memWrite hw, if_pos rfl]
    · rw [State.memRead_memWrite hw, if_neg hb]
  · rw [State.memRead_ok _ (Nat.lt_succ_of_le ha)]
    rfl

/-- Settles O24: the bound of the primitives is the least address that no byte holds. -/
theorem addressesOutsideMemoryRaise : Obligations.AddressesOutsideMemoryRaise := fun s v =>
  ⟨fun _ ha => ⟨s.memRead_error ha, s.memWrite_error ha v⟩, fun a => ⟨s.memRead_ok a.isLt, s.memWrite_ok a.isLt v⟩⟩

/-! ## Program load (R40, R41) -/

theorem State.load_fits {img : List Byte} (h : img.length ≤ 256) (s : State) :
    s.load img = { s with mem := s.mem.copyIn Config.loadBase img } := if_pos h

/-- Each cell after the load of an image that fits: the image's byte, or what it held where the image is shorter (R40). -/
theorem State.rd_load {img : List Byte} (h : img.length ≤ 256) (s : State) (a : Byte) :
    (s.load img).rd a = img.getD a.toNat (s.rd a) := by
  rw [State.load_fits h]
  simp only [State.rd, Memory.read_copyIn, Config.loadBase, Nat.zero_le, Nat.zero_add, Nat.sub_zero, true_and,
    List.getD_eq_getElem?_getD]
  split
  · next hlt => simp [hlt]
  · next hge => simp [Nat.le_of_not_lt hge]

/-- Settles O31. -/
theorem loadCopiesTheImage : Obligations.LoadCopiesTheImage := by
  intro s img h
  refine ⟨fun a v hv => ?_, fun a ha => ?_, fun h8 => ?_, ?_, ?_⟩
  · rw [State.rd_load h, List.getD_eq_getElem?_getD, hv, Option.getD_some]
  · rw [State.rd_load h, List.getD_eq_default _ _ ha]
  · have h7 : 7 < img.length := h8
    rw [State.sp_eq, State.rd_load h]
    simp [h7]
  · rw [State.load_fits h]
  · rw [State.load_fits h]
    exact ⟨rfl, rfl, ⟨rfl, rfl⟩, rfl, rfl, rfl, rfl⟩

/-- An oversized load raises and leaves all but memory and the model's counter as they were (R41). -/
theorem State.load_oversized {img : List Byte} (h : 256 < img.length) (s : State) :
    s.load img = { s with
      mem := Memory.ofCells fun a => Config.freeByte (s.freeCount + a)
      run := .faulted (.loadOverflow img.length)
      freeCount := s.freeCount + Config.memSize } := if_neg (Nat.not_le.2 h)

theorem step_faulted {s : State} {c : Fault} (h : s.run = .faulted c) : step s = .fault c := by
  simp [step, h]

/-- Settles O32: the load itself raises, and a FAULTED machine runs no cycle. -/
theorem oversizedImageFaults : Obligations.OversizedImageFaults := by
  intro s img h
  have hrun : (s.load img).run = .faulted (.loadOverflow img.length) := by rw [State.load_oversized h]
  refine ⟨hrun, ?_, ?_, ?_, step_faulted hrun⟩
  all_goals rw [State.load_oversized h]
  exact ⟨rfl, rfl⟩

end Sys2Proof.Machine

namespace Sys2Proof

/-! ## Legal opcode maps (R50, R51, R55) -/

/-- The operand count is the upper half of the opcode's high nibble (R51). -/
theorem operandCount_eq_highNibble (ir : Byte) : operandCount ir = (ir.extractLsb' 4 4).toNat / 4 := by
  simp only [operandCount, BitVec.toNat_ushiftRight, BitVec.extractLsb'_toNat, Nat.shiftRight_eq_div_pow]
  omega

section
variable {map : OpcodeMap} (h : map.wellFormed = true)
include h

theorem OpcodeMap.distinct_of_wellFormed : map.distinct = true := by
  simp only [OpcodeMap.wellFormed, Bool.and_eq_true] at h
  exact h.2

theorem OpcodeMap.highNibble_of_wellFormed (m : Mnemonic) : (map m).extractLsb' 4 4 = m.highNibble := by
  simp only [OpcodeMap.wellFormed, OpcodeMap.highNibblesMatch, Bool.and_eq_true, List.all_eq_true, beq_iff_eq] at h
  obtain ⟨⟨hhigh, -⟩, -⟩ := h
  exact hhigh m m.mem_all

/-- Every legal map counts as many operand bytes for a mnemonic as this hardware's does (R55). -/
theorem operandCount_of_wellFormed (m : Mnemonic) : operandCount (map m) = operandCount (opcodeMap m) := by
  rw [operandCount_eq_highNibble, operandCount_eq_highNibble, OpcodeMap.highNibble_of_wellFormed h,
    OpcodeMap.highNibble_of_wellFormed opcodeMap_wellFormed]

end

/-! ## The operand bytes (R50, R54, R66) -/

/-- No row of the table counts three operand bytes (R50, R59). -/
theorem operandCount_opcodeMap_le (m : Mnemonic) : operandCount (opcodeMap m) ≤ 2 := by
  cases m <;> decide

/-- The operand bytes are as many of the two candidates as the opcode counts (R66). -/
theorem operands_withOperands (m : Mnemonic) (a b : Byte) :
    (m.withOperands a b).operands = [a, b].take (operandCount (opcodeMap m)) := by
  cases m <;> rfl

/-- An instruction is its mnemonic with its own operand bytes, whatever follows these (R54). -/
theorem withOperands_operands (i : Instr) (rest : List Byte) :
    i.mnemonic.withOperands ((i.operands ++ rest).getD 0 0) ((i.operands ++ rest).getD 1 0) = i := by
  cases i <;> rfl

/-- The two candidates hold the first two bytes, so that at most two can be taken from them (R66). -/
theorem take_candidates {n : Nat} {bytes : List Byte} (h2 : n ≤ 2) (h : n ≤ bytes.length) :
    [bytes.getD 0 0, bytes.getD 1 0].take n = bytes.take n := by
  match n, bytes with
  | 0, _ => rfl
  | 1, _ :: _ => rfl
  | 2, _ :: _ :: _ => rfl

/-! ## Decode and encode are inverse (R50, R52, R68) -/

/-- What a decode that succeeds has read: the opcode byte of a row, and as many operand bytes as it counts (R52, R68). -/
theorem decodeWith_eq_ok {map : OpcodeMap} {bytes rest : List Byte} {i : Instr} :
    decodeWith map bytes = .ok (i, rest) ↔ ∃ ir tail m, bytes = ir :: tail ∧ lookup map ir = some m ∧
      operandCount ir ≤ tail.length ∧ i = m.withOperands (tail.getD 0 0) (tail.getD 1 0) ∧
      rest = tail.drop (operandCount ir) := by
  cases bytes with
  | nil => simp [decodeWith]
  | cons ir tail =>
    cases hl : lookup map ir with
    | none => simp [decodeWith, hl]
    | some m =>
      by_cases hn : tail.length < operandCount ir
      · simp [decodeWith, hl, hn]
      · simp [decodeWith, hl, hn, Nat.not_lt.1 hn, eq_comm]

/-- Settles O1: the opcode byte looks up its own mnemonic, and its bits 7..6 count exactly the operand bytes. -/
theorem everyOpcodeMapRoundTrips : Obligations.EveryOpcodeMapRoundTrips := by
  intro map h i rest
  have hlookup := lookup_opcode (OpcodeMap.distinct_of_wellFormed h) i.mnemonic
  have hcount : operandCount (map i.mnemonic) = i.operands.length := by
    rw [operandCount_of_wellFormed h, operandCount_opcodeMap]
  refine decodeWith_eq_ok.2
    ⟨_, i.operands ++ rest, i.mnemonic, rfl, hlookup, ?_, (withOperands_operands i rest).symm, ?_⟩
  · simp [hcount]
  · rw [hcount, List.drop_left]

/-- Settles O2: the operand bytes taken and the bytes left are the two parts of what follows the opcode byte. -/
theorem decodedBytesAreTheEncoding : Obligations.DecodedBytesAreTheEncoding := by
  intro map h bytes rest i hdec
  obtain ⟨_, tail, m, rfl, hl, hn, rfl, rfl⟩ := decodeWith_eq_ok.1 hdec
  obtain rfl := opcode_of_lookup hl
  rw [operandCount_of_wellFormed h] at hn ⊢
  rw [encodeWith, mnemonic_withOperands, operands_withOperands, take_candidates (operandCount_opcodeMap_le m) hn,
    List.cons_append, List.take_append_drop]

/-- Settles O3: each written byte is the map's, so that O1 gives its row. -/
theorem decodesTheWrittenOpcodes : Obligations.DecodesTheWrittenOpcodes := by
  intro a b rest
  have h (i : Instr) : decode (encode i ++ rest) = .ok (i, rest) :=
    everyOpcodeMapRoundTrips opcodeMap opcodeMap_wellFormed i rest
  exact ⟨h .nop, h .hlt, h .ret, h (.push a), h (.pop a), h (.prn a), h (.pra a), h (.call a), h (.jmp a), h (.jeq a),
    h (.jne a), h (.jgt a), h (.jlt a), h (.jle a), h (.jge a), h (.inc a), h (.dec a), h (.not a), h (.ldi a b),
    h (.ld a b), h (.st a b), h (.add a b), h (.sub a b), h (.mul a b), h (.div a b), h (.mod a b), h (.cmp a b),
    h (.and a b), h (.or a b), h (.xor a b), h (.shl a b), h (.shr a b), h (.int a), h .iret⟩

/-! ## The fields of this hardware's opcodes (R51, R56, R57) -/

/-- L marks the 14 ALU instructions (R51). -/
theorem aluMarker_opcodeMap (m : Mnemonic) : aluMarker (opcodeMap m) = true ↔
    m ∈ [Mnemonic.add, .sub, .mul, .div, .mod, .inc, .dec, .and, .or, .xor, .not, .shl, .shr, .cmp] := by
  cases m <;> decide

/-- P marks the nine instructions that set the pc and the two reserved slots (R51, R57). -/
theorem setsPc_opcodeMap (m : Mnemonic) : setsPc (opcodeMap m) = true ↔
    m ∈ [Mnemonic.jmp, .call, .ret, .jeq, .jne, .jgt, .jge, .jlt, .jle, .int, .iret] := by
  cases m <;> decide

/-- Settles O4, field by field. -/
theorem opcodeFieldsMatchTheHandlers : Obligations.OpcodeFieldsMatchTheHandlers := fun i =>
  ⟨operandCount_opcodeMap i, aluMarker_opcodeMap _, setsPc_opcodeMap _, fun _ h => Machine.opcodeMap_injective h⟩

/-- Settles O5: bits 7..6 count the operand bytes, and no instruction has three. -/
theorem threeFormatsOfOneTwoOrThreeBytes : Obligations.ThreeFormatsOfOneTwoOrThreeBytes := by
  intro i
  have hle := operandCount_opcodeMap_le i.mnemonic
  have hbits := Machine.operandCount_eq (opcodeMap i.mnemonic)
  simp only [encode, encodeWith]
  rw [operandCount_opcodeMap] at hle hbits
  match i.operands, hle, hbits with
  | [], _, hbits => exact .inl ⟨_, rfl, BitVec.eq_of_toNat_eq hbits.symm⟩
  | [a], _, hbits => exact .inr (.inl ⟨_, a, rfl, BitVec.eq_of_toNat_eq hbits.symm⟩)
  | [a, b], _, hbits => exact .inr (.inr ⟨_, a, b, rfl, BitVec.eq_of_toNat_eq hbits.symm⟩)

end Sys2Proof

namespace Sys2Proof.Machine

/-! ## Invalid opcode bytes (R58, R59, R72) -/

/-- The cycle of an invalid opcode byte reports it and advances, whether a reserved slot or no row has it (R72, R82). -/
theorem step_of_isInvalid {s : State} (hr : s.run = .running) (hp : s.canFetch) (hi : isInvalid s.opcodeAt) :
    step s = .next (s.latched.invalidInstruction s.opcodeAt) := by
  have hview : s.SameView s := ⟨rfl, rfl, rfl⟩
  cases hl : lookup opcodeMap s.opcodeAt with
  | none => exact step_of_invalid hr hp hl hview
  | some m =>
    have hm := opcode_of_lookup hl
    rw [step_of_valid hr hp hl hview, exec_reserved (by simp [reserved_of_isInvalid hm hi]), mnemonic_withOperands, hm]

theorem operandCount_of_le {ir : Byte} (h : 0xC0 ≤ ir.toNat) : operandCount ir = 3 := by
  simp only [operandCount, BitVec.toNat_ushiftRight, Nat.shiftRight_eq_div_pow]
  omega

theorem isInvalid_of_le {ir : Byte} (h : 0xC0 ≤ ir.toNat) : isInvalid ir := by
  rintro m - rfl
  have hle := operandCount_opcodeMap_le m
  have h3 := operandCount_of_le h
  omega

/-- Settles O10: no row counts three operand bytes, and the report of such a byte advances by its own count. -/
theorem operandCountThreeIsInvalid : Obligations.OperandCountThreeIsInvalid := by
  refine ⟨fun _ => isInvalid_of_le, fun s hr hp h hP => ⟨_, step_of_isInvalid hr hp (isInvalid_of_le h), ?_⟩⟩
  have hpc := State.toNat_advance_pc (s := s.latched.emitDiag (.invalidInstruction s.opcodeAt)) hp hP
  rwa [operandCount_of_le h] at hpc

/-- The 32 instructions of R56. -/
def validMnemonics : List Mnemonic := Mnemonic.all.filter fun m => !m.reserved

theorem length_validMnemonics : validMnemonics.length = 32 := by decide

/-- The opcodes of the 32, as numbers. -/
def validOpcodes : List Nat := validMnemonics.map fun m => (opcodeMap m).toNat

theorem nodup_validOpcodes : validOpcodes.Nodup :=
  (show validMnemonics.Nodup by decide).map (BitVec.toNat_injective.comp opcodeMap_injective)

/-- No instruction of the 32 has the byte `n` (R58). -/
def isFreeByte (n : Nat) : Bool := Mnemonic.all.all fun m => m.reserved || opcodeMap m != BitVec.ofNat 8 n

theorem isFreeByte_eq_false {n : Nat} (hn : n < 256) : isFreeByte n = false ↔ n ∈ validOpcodes := by
  simp [isFreeByte, validOpcodes, validMnemonics, Mnemonic.mem_all, ← BitVec.toNat_inj, Nat.mod_eq_of_lt hn]

theorem perm_validOpcodes : ((List.range 256).filter fun n => !isFreeByte n).Perm validOpcodes := by
  refine (List.perm_ext_iff_of_nodup (List.nodup_range.filter _) nodup_validOpcodes).2 fun n => ?_
  simp only [List.mem_filter, List.mem_range, Bool.not_eq_true']
  refine ⟨fun ⟨hn, hf⟩ => (isFreeByte_eq_false hn).1 hf, fun h => ?_⟩
  obtain ⟨m, -, rfl⟩ := List.mem_map.1 h
  exact ⟨(opcodeMap m).isLt, (isFreeByte_eq_false (opcodeMap m).isLt).2 h⟩

/-- The 32 opcodes are distinct, so that they leave 224 of the 256 bytes (R58). -/
theorem length_filter_isFreeByte : ((List.range 256).filter isFreeByte).length = 224 := by
  have hsplit := List.length_eq_length_filter_add (l := List.range 256) isFreeByte
  rw [perm_validOpcodes.length_eq, validOpcodes, List.length_map, length_validMnemonics, List.length_range] at hsplit
  omega

/-- Settles O11: the counts, the two slots, and the report of any byte that no instruction of the 32 has. -/
theorem everyOtherOpcodeIsInvalid : Obligations.EveryOtherOpcodeIsInvalid := by
  refine ⟨length_validMnemonics, length_filter_isFreeByte, isInvalid_opcode.2 rfl, isInvalid_opcode.2 rfl,
    fun s hr hp h => ?_⟩
  have hi : isInvalid s.opcodeAt := fun m hm he => by simp [h m he] at hm
  exact ⟨_, step_of_isInvalid hr hp hi, rfl, hr⟩

end Sys2Proof.Machine

namespace Sys2Proof.Machine

/-! ## A step of each run state (R65, R170) -/

theorem step_halted {s : State} (h : s.run = .halted) : step s = .next s := by
  simp [step, h]

/-- A RUNNING machine takes another cycle (R65, R170). -/
theorem exists_next_of_running {s : State} (hr : s.run = .running) : ∃ t, step s = .next t := by
  obtain ⟨f, -, hstep⟩ := exists_cycleRuns hr
  exact ⟨f s, hstep s ⟨rfl, rfl, rfl⟩⟩

/-- No step is refused (R170). -/
theorem step_ne_refused (s : State) (r : Refusal) : step s ≠ .refused r := by
  cases hr : s.run with
  | running =>
    obtain ⟨t, ht⟩ := exists_next_of_running hr
    simp [ht]
  | halted => simp [step_halted hr]
  | faulted c => simp [step_faulted hr]

/-- A machine that has stopped is frozen: HALTED stays as it is, and FAULTED has no next state (R74). -/
theorem eq_of_step_of_not_running {s t : State} (hr : s.run ≠ .running) (h : step s = .next t) : t = s := by
  cases hs : s.run with
  | running => exact absurd hs hr
  | halted => exact (Host.Outcome.next.inj ((step_halted hs).symm.trans h)).symm
  | faulted c => cases (step_faulted hs).symm.trans h

/-! ## The hang of an invalid opcode with bit 4 set (R73) -/

/-- With bit 4 set the report is the whole of an invalid instruction: the advance step leaves the pc (R73). -/
theorem State.invalidInstruction_of_setsPc (s : State) {ir : Byte} (hP : setsPc ir = true) :
    s.invalidInstruction ir = s.emitDiag (.invalidInstruction ir) := by
  simp only [State.invalidInstruction, State.advance, hP, if_true]

theorem core_run_succ {s t : State} (n : Nat) (h : step s = .next t) : core.run (n + 1) s = core.run n t := by
  simp [Host.Core.run, core, h]

/-- Settles O9, by induction on the number of cycles: the state after the report is again one that hangs, at the same pc
and the same opcode byte. -/
theorem invalidInstructionWithBit4Hangs : Obligations.InvalidInstructionWithBit4Hangs := by
  intro n
  induction n with
  | zero => exact fun s hr _ _ _ => ⟨s, rfl, hr, rfl, fun _ => rfl, rfl, rfl, by simp⟩
  | succ n ih =>
    intro s hr hp hi hP
    have hstep : step s = .next (s.latched.emitDiag (.invalidInstruction s.opcodeAt)) := by
      rw [step_of_isInvalid hr hp hi, State.invalidInstruction_of_setsPc _ hP]
    obtain ⟨t, hrun, htr, hpc, hmem, hfl, hout, hdiag⟩ :=
      ih (s.latched.emitDiag (.invalidInstruction s.opcodeAt)) hr hp hi hP
    refine ⟨t, (core_run_succ n hstep).trans hrun, htr, hpc, hmem, hfl, hout, ?_⟩
    calc t.diag = s.diag ++ [.invalidInstruction s.opcodeAt] ++ List.replicate n (.invalidInstruction s.opcodeAt) :=
        hdiag
      _ = s.diag ++ List.replicate (n + 1) (.invalidInstruction s.opcodeAt) := by
        rw [List.append_assoc, List.singleton_append, ← List.replicate_succ]

/-! ## How a run ends (R74) -/

/-- The fetched row ends the run: HLT, or DIV or MOD with a zero divisor (R74, R80, R121). -/
def State.HaltsOn (s : State) (m : Mnemonic) : Prop :=
  m = .hlt ∨ ((m = .div ∨ m = .mod) ∧ s.rd s.operandBAt = 0)

/-- No row that can end the run is a slot, a stack instruction or one with P = 1 (R56, R57). -/
theorem State.HaltsOn.fields {s : State} {m : Mnemonic} (h : s.HaltsOn m) :
    m.reserved = false ∧ m ∉ [Mnemonic.push, .pop, .call, .ret] ∧ setsPc (opcodeMap m) = false := by
  obtain rfl | ⟨rfl | rfl, -⟩ := h <;> decide

theorem aluDivide_run_eq_halted {s : State} (hr : s.run = .running) (g : Byte → Byte → Byte)
    (report : PcWord → DiagEvent) (ra rb : Byte) :
    (aluDivide g report ra rb s).run = .halted ↔ s.rd rb = 0 := by
  unfold aluDivide
  split
  case isTrue h => exact iff_of_true rfl h
  case isFalse h => exact iff_of_false (fun hh => by cases hr.symm.trans hh) h

/-- The handlers that halt a RUNNING machine are those of HLT, and of DIV and MOD with a zero divisor (R74). -/
theorem handled_run_eq_halted {s : State} (hr : s.run = .running) (m : Mnemonic) :
    (handled (m.withOperands s.operandAt s.operandBAt) s.latched).run = .halted ↔ s.HaltsOn m := by
  cases m
  case hlt => exact iff_of_true rfl (.inl rfl)
  case div | mod =>
    simp only [Mnemonic.withOperands, handled, aluDivide_run_eq_halted (s := s.latched) hr]
    simp [State.HaltsOn]
  all_goals
    refine iff_of_false (fun h => ?_) (by simp [State.HaltsOn])
    cases hr.symm.trans h

namespace CycleRuns

variable {s : State} {f : State → State} (hf : CycleRuns s f) (hr : s.run = .running)
include hf hr

/-- A cycle ends HALTED exactly when it fetched a row that ends the run (R74). -/
theorem run_eq_halted :
    (f s).run = .halted ↔ s.canFetch ∧ ∃ m, lookup opcodeMap s.opcodeAt = some m ∧ s.HaltsOn m := by
  cases hf with
  | raise c hc =>
    refine iff_of_false nofun fun ⟨hp, m, hl, hm⟩ => ?_
    obtain ⟨-, hstack, -⟩ := hm.fields
    cases c with
    | outOfBoundsAddress a => exact absurd hp (Nat.not_le.2 hc.1)
    | stackBounds b =>
      obtain ⟨⟨n, hn, hln⟩, -⟩ := hc
      exact hstack (Option.some.inj (hln.symm.trans hl) ▸ hn)
    | loadOverflow => exact hc
  | report _ hi =>
    refine iff_of_false (fun h => ?_) fun ⟨_, m, hl, hm⟩ => ?_
    · cases hr.symm.trans h
    · obtain ⟨hres, -⟩ := hm.fields
      exact hi m hres (opcode_of_lookup hl)
  | handle m hp hm =>
    have hl := lookup_opcodeMap_eq_some.2 hm
    exact (handled_run_eq_halted hr m).trans
      ⟨fun h => ⟨hp, m, hl, h⟩, fun ⟨_, n, hn, h⟩ => Option.some.inj (hn.symm.trans hl) ▸ h⟩

/-- A cycle ends FAULTED only by a fault it can raise (R66, R92). -/
theorem canRaise_of_run_eq_faulted {c : Fault} (h : (f s).run = .faulted c) : s.CanRaise c := by
  cases hf with
  | raise d hd => exact RunState.faulted.inj h ▸ hd
  | report => cases hr.symm.trans h
  | handle m =>
    obtain hrun | hrun := handled_run (m.withOperands s.operandAt s.operandBAt) s.latched
    · cases (hrun.trans hr).symm.trans h
    · cases hrun.symm.trans h

end CycleRuns

/-- Settles O12: which cycles end HALTED and FAULTED, and that both are frozen. -/
theorem runEndsOnlyByHaltOrFault : Obligations.RunEndsOnlyByHaltOrFault := by
  intro s t hr hstep
  obtain ⟨f, hf, rfl, -⟩ := cycleRuns_of_step hr hstep
  have hhalt := hf.run_eq_halted hr
  refine ⟨fun h => ?_, fun hp m hl hm => hhalt.2 ⟨hp, m, hl, hm⟩, fun c h => ?_, fun h u => eq_of_step_of_not_running h,
    exists_next_of_running⟩
  · obtain ⟨-, m, hl, hm⟩ := hhalt.1 h
    obtain ⟨-, -, hP⟩ := hm.fields
    exact ⟨m, hl, hm, hf.toNat_pc (by simp [h]) (opcode_of_lookup hl ▸ hP)⟩
  · have hc := hf.canRaise_of_run_eq_faulted hr h
    cases c with
    | outOfBoundsAddress a => exact .inl ⟨a, rfl⟩
    | stackBounds b => exact .inr ⟨b, rfl⟩
    | loadOverflow => exact hc.elim

/-! ## The fetch, the report and the dispatch of a cycle (R65, R66, R68, R72) -/

theorem State.faultsWith_raise (s : State) (c : Fault) : FaultsWith s (s.raise c) c :=
  ⟨rfl, rfl, rfl, rfl, rfl, rfl⟩

/-- A fetch out of range faults on the first address outside memory (R66). -/
theorem exists_faultsWith_of_fetchFault {s : State} (hr : s.run = .running) (hp : 254 ≤ s.pc.toNat) :
    ∃ t, step s = .next t ∧ FaultsWith s t (.outOfBoundsAddress (max 256 s.pc.toNat)) :=
  ⟨_, step_of_fetchFault hr (Nat.not_le.2 hp) ⟨rfl, rfl, rfl⟩, s.faultsWith_raise _⟩

/-- Settles O7: a cycle that was fetched raises a stack fault or leaves the latches loaded, and one that was not raises
with the first of its three addresses that is outside memory. -/
theorem fetchLoadsThreeBytesOrFaults : Obligations.FetchLoadsThreeBytesOrFaults := by
  intro s hr
  have hfault := exists_faultsWith_of_fetchFault hr
  refine ⟨fun hp => ?_, fun hp => ?_, fun hp => ?_⟩
  · obtain ⟨t, hstep⟩ := exists_next_of_running hr
    obtain ⟨f, hf, rfl, -⟩ := cycleRuns_of_step hr hstep
    refine ⟨f s, hstep, ?_⟩
    by_cases hnf : ∀ c, (f s).run ≠ .faulted c
    · exact .inr (hf.latches hnf)
    · simp only [not_forall, not_not] at hnf
      obtain ⟨c, hc⟩ := hnf
      have hraise := hf.canRaise_of_run_eq_faulted hr hc
      cases c with
      | outOfBoundsAddress a => exact absurd hp (Nat.not_le.2 hraise.1)
      | stackBounds b => exact .inl ⟨b, hc⟩
      | loadOverflow => exact hraise.elim
  · have hmax : max 256 s.pc.toNat = 256 := by omega
    exact hmax ▸ hfault (by omega)
  · have hmax : max 256 s.pc.toNat = s.pc.toNat := by omega
    exact hmax ▸ hfault (by omega)

/-- Settles O8: the report is all that the cycle does but for the advance step, which bits 7..6 and 4 drive. -/
theorem invalidInstructionReportsAndContinues : Obligations.InvalidInstructionReportsAndContinues := by
  intro s hr hp hi
  refine ⟨_, step_of_isInvalid hr hp hi, rfl, fun _ => rfl, rfl, hr, rfl, fun hP => ?_, State.advance_pc_of_setsPc _⟩
  rw [← operandCount_eq]
  exact State.toNat_advance_pc (s := s.latched.emitDiag _) hp hP

/-- Settles O20, by the three run states. -/
theorem everyRunningStateHasNextState : Obligations.EveryRunningStateHasNextState := fun s =>
  ⟨exists_next_of_running, step_halted, fun _ => step_faulted, step_ne_refused s⟩

/-- Settles O6: what the three fetched bytes decode to is the row of the first with the other two as its operands. -/
theorem stepRunsTheDecodedInstruction : Obligations.StepRunsTheDecodedInstruction := by
  intro s i rest hr hp hdec
  obtain ⟨_, _, m, hbytes, hl, -, rfl, -⟩ := decodeWith_eq_ok.1 hdec
  cases hbytes
  exact step_of_valid hr hp hl ⟨rfl, rfl, rfl⟩

end Sys2Proof.Machine

namespace Sys2Proof.Machine

/-! ## NOP, HLT and the two reserved slots (R80, R81, R82) -/

theorem exec_nop (s : State) : exec .nop s = .next (s.advance (opcodeMap .nop)) := rfl

theorem exec_hlt (s : State) : exec .hlt s = .next (s.halt.advance (opcodeMap .hlt)) := rfl

theorem State.advance_pc_of_not_setsPc (s : State) {ir : Byte} (hs : setsPc ir = false) :
    (s.advance ir).pc = s.pc + BitVec.ofNat 9 (operandCount ir + 1) := by
  simp only [State.advance_pc, hs, Bool.false_eq_true, if_false]

/-- The rows without operands that leave the pc to the advance step move it by 1 (R71). -/
theorem State.advance_pc_of_nop_or_hlt (s : State) {m : Mnemonic} (h : m ∈ [Mnemonic.nop, .hlt]) :
    (s.advance (opcodeMap m)).pc = s.pc + 1 := by
  obtain ⟨hP, hN⟩ := advances_by_zero m h
  rw [s.advance_pc_of_not_setsPc hP, hN]
  rfl

/-- A reserved slot reports its own byte and does nothing else: both have bit 4 set, so that the pc stays (R57, R82). -/
theorem exec_reserved_emitDiag {i : Instr} (hw : i.wellFormed = false) (s : State) :
    exec i s = .next (s.emitDiag (.invalidInstruction (opcodeMap i.mnemonic))) := by
  have hP : setsPc (opcodeMap i.mnemonic) = true := by
    cases i
    case int | iret => simp [setsPc_opcodeMap, Instr.mnemonic]
    all_goals cases hw
  rw [exec_reserved hw, State.invalidInstruction_of_setsPc s hP]

/-- Settles O34: the handler leaves the state as it is, and a cell at reset holds the byte of NOP. -/
theorem nopOnlyAdvances : Obligations.NopOnlyAdvances := by
  obtain ⟨hdecode, -⟩ := Laws.RoundTrip.nop
  refine ⟨hdecode, fun s => ?_, fun a ha => (State.rd_reset a).trans (if_neg ha)⟩
  exact ⟨_, exec_nop s, s.advance_pc_of_nop_or_hlt (by decide), fun _ => rfl, rfl, rfl, ⟨rfl, rfl⟩, rfl, rfl, rfl, rfl⟩

/-- Settles O35: the handler writes RUN alone, the advance step follows it, and a fetch out of range comes before both. -/
theorem hltHaltsAfterAdvancing : Obligations.HltHaltsAfterAdvancing := by
  obtain ⟨hdecode, -⟩ := Laws.RoundTrip.hlt
  refine ⟨hdecode, fun s => ?_, fun s hr hp _ => ?_⟩
  · exact ⟨_, exec_hlt s, rfl, s.halt.advance_pc_of_nop_or_hlt (by decide), fun _ => rfl, rfl, ⟨rfl, rfl⟩, rfl, rfl, rfl,
      rfl⟩
  · obtain ⟨t, hstep, hfault⟩ := exists_faultsWith_of_fetchFault hr hp
    exact ⟨t, _, hstep, hfault⟩

/-- Settles O36: the report is the whole of either slot. -/
theorem reservedSlotsActAsInvalid : Obligations.ReservedSlotsActAsInvalid := fun ra s =>
  ⟨⟨_, exec_reserved_emitDiag (i := .int ra) rfl s, rfl, rfl, fun _ => rfl, rfl, rfl, rfl, rfl, rfl, rfl, rfl⟩,
    ⟨_, exec_reserved_emitDiag (i := .iret) rfl s, rfl, rfl, fun _ => rfl, rfl, rfl, rfl, rfl, rfl, rfl, rfl⟩⟩

end Sys2Proof.Machine

namespace Sys2Proof.Machine

/-! ## LDI, LD and ST (R85, R86, R87) -/

theorem exec_ldi (ra imm : Byte) (s : State) :
    exec (.ldi ra imm) s = .next ((s.wr ra imm).advance (opcodeMap .ldi)) := rfl

theorem exec_ld (ra rb : Byte) (s : State) :
    exec (.ld ra rb) s = .next ((s.wr ra (s.rd (s.rd rb))).advance (opcodeMap .ld)) := rfl

theorem exec_st (ra rb : Byte) (s : State) :
    exec (.st ra rb) s = .next ((s.wr (s.indirectAddress ra) (s.rd rb)).advance (opcodeMap .st)) := rfl

theorem exec_prn (ra : Byte) (s : State) :
    exec (.prn ra) s = .next ((s.emitOut (.prn (s.rd ra))).advance (opcodeMap .prn)) := rfl

/-- One write of a byte address is the whole of the change it makes to the cells, and the advance step touches none (R30,
R71). -/
theorem writesOnly_wr_advance (s : State) (a v ir : Byte) : WritesOnly s ((s.wr a v).advance ir) a v := by
  constructor
  · rw [State.rd_advance, State.rd_wr, if_pos rfl]
  · intro x hx
    rw [State.rd_advance, State.rd_wr, if_neg hx]

/-- A meaning that is one write, then the advance step of a row with two operands, moves the pc by 3 and keeps the rest
(R71). -/
theorem writesAndAdvances_of_exec_wr {i : Instr} {s : State} {a v : Byte} {m : Mnemonic}
    (hm : setsPc (opcodeMap m) = false ∧ operandCount (opcodeMap m) = 2)
    (hexec : exec i s = .next ((s.wr a v).advance (opcodeMap m))) : WritesAndAdvances i s a v 3 := by
  obtain ⟨hP, hN⟩ := hm
  have hpc : ((s.wr a v).advance (opcodeMap m)).pc = s.pc + BitVec.ofNat 9 3 := by
    rw [State.advance_pc_of_not_setsPc _ hP, hN, State.wr_pc]
  exact ⟨_, hexec, writesOnly_wr_advance s a v _, hpc, rfl, rfl, ⟨rfl, rfl⟩, rfl, rfl, rfl, rfl⟩

/-- Settles O37: the write is the whole of LDI, and a PRN after it reads the cell just written. -/
theorem ldiWritesTheImmediate : Obligations.LdiWritesTheImmediate := by
  intro ra imm s
  obtain ⟨hdecode, -⟩ := Laws.RoundTrip.ldi ra imm
  have hwrites := writesAndAdvances_of_exec_wr (advances_by_two .ldi (by decide)) (exec_ldi ra imm s)
  refine ⟨hdecode [], hwrites, fun t ht => ⟨_, exec_prn ra t, ?_⟩⟩
  obtain rfl := Host.Outcome.next.inj ((exec_ldi ra imm s).symm.trans ht)
  obtain ⟨hrd, -⟩ := writesOnly_wr_advance s ra imm (opcodeMap .ldi)
  rw [State.advance_out, State.emitOut_out, hrd, State.advance_out, State.wr_out]

/-- Settles O38: the write is the whole of LD, with the address and the value read from the state before it. -/
theorem ldCopiesThePointedCell : Obligations.LdCopiesThePointedCell := fun ra rb s =>
  ⟨(Laws.RoundTrip.ld ra rb).1 [], writesAndAdvances_of_exec_wr (advances_by_two .ld (by decide)) (exec_ld ra rb s)⟩

/-- Settles O39: the write is the whole of ST, to the address that the cell `ra` holds before it. -/
theorem stWritesThePointedCell : Obligations.StWritesThePointedCell := fun ra rb s =>
  ⟨(Laws.RoundTrip.st ra rb).1 [], writesAndAdvances_of_exec_wr (advances_by_two .st (by decide)) (exec_st ra rb s), rfl⟩

end Sys2Proof.Machine

namespace Sys2Proof.Machine

/-! ## Raise or handler of a stack instruction (R92) -/

theorem exec_of_stackFault_eq_none {i : Instr} {s : State} (hw : i.wellFormed = true) (h : stackFault i s = none) :
    exec i s = .next ((handled i s).advance (opcodeMap i.mnemonic)) := by
  rw [exec_wellFormed hw, h, Option.elim_none]

/-- A stack fault leaves the cells, the pc, the flags and the streams as before the cycle (R92, R141). -/
theorem exists_faultsWith_of_stackFault {i : Instr} {s : State} {b : Byte} (hw : i.wellFormed = true)
    (h : stackFault i s = some b) : ∃ t, exec i s = .next t ∧ FaultsWith s t (.stackBounds b) :=
  ⟨_, by rw [exec_wellFormed hw, h, Option.elim_some], s.faultsWith_raise _⟩

theorem spTop_le_iff {b : Byte} : Config.spTop ≤ b ↔ 0xF4 ≤ b.toNat := BitVec.le_def

theorem not_spTop_le_iff {b : Byte} : ¬Config.spTop ≤ b ↔ b.toNat < 0xF4 := by rw [spTop_le_iff, Nat.not_le]

/-- Settles O42, by the condition under which each of the five raises. -/
theorem stackBoundsFault : Obligations.StackBoundsFault := by
  refine fun ra s => ⟨fun hsp => ⟨?_, ?_⟩, fun hsp => ⟨?_, ?_⟩, fun hsp htop => ?_⟩
  · exact exists_faultsWith_of_stackFault (i := .push ra) rfl (if_pos hsp)
  · exact exists_faultsWith_of_stackFault (i := .call ra) rfl (if_pos hsp)
  · exact exists_faultsWith_of_stackFault (i := .pop ra) rfl (if_pos (spTop_le_iff.2 hsp))
  · exact exists_faultsWith_of_stackFault (i := .ret) rfl (if_pos (spTop_le_iff.2 hsp))
  · exact exists_faultsWith_of_stackFault (i := .pop 7) rfl
      ((if_neg (not_spTop_le_iff.2 hsp)).trans (if_pos ⟨rfl, spTop_le_iff.2 htop⟩))

/-! ## The cells PUSH and POP leave (R90, R91) -/

/-- The slot is written last, so that it holds the pushed value even where it is R7 (R90, D6). -/
theorem rd_handled_push (ra : Byte) (s : State) (x : Byte) :
    (handled (.push ra) s).rd x =
      if x = s.pushAddress then if ra = 7 then s.pushAddress else s.rd ra
      else if x = 7 then s.pushAddress else s.rd x := by
  simp only [handled, State.rd_wr]
  rfl

/-- SP is written last, one above what it reads as after the popped byte is in place (R91, D6). -/
theorem rd_handled_pop (ra : Byte) (s : State) (x : Byte) :
    (handled (.pop ra) s).rd x =
      if x = 7 then (if ra = 7 then s.rd s.sp else s.sp) + 1
      else if x = ra then s.rd s.sp else s.rd x := by
  simp only [handled, State.rd_wr, State.sp_wr, eq_comm (a := Config.spReg)]
  rfl

/-- Two writes and the advance step of a row with one operand move the pc by 2 and keep the rest (R71). -/
theorem pc_and_keepsRest_wr_wr_advance {m : Mnemonic}
    (hm : setsPc (opcodeMap m) = false ∧ operandCount (opcodeMap m) = 1) (s : State) (a v b w : Byte) :
    (((s.wr a v).wr b w).advance (opcodeMap m)).pc = s.pc + 2 ∧
      KeepsRest s (((s.wr a v).wr b w).advance (opcodeMap m)) := by
  obtain ⟨hP, hN⟩ := hm
  refine ⟨?_, rfl, rfl, ⟨rfl, rfl⟩, rfl, rfl, rfl, rfl⟩
  rw [State.advance_pc_of_not_setsPc _ hP, hN, State.wr_pc, State.wr_pc]
  rfl

/-! ## PUSH and POP (R90, R91, R94) -/

theorem State.toNat_pushAddress {s : State} (h : s.sp ≠ 0) : s.pushAddress.toNat = s.sp.toNat - 1 := by
  unfold State.pushAddress
  bv_omega

/-- Settles O40: the slot is the last of the two cells written, and R7 the other. -/
theorem pushStoresBelowTheStackPointer : Obligations.PushStoresBelowTheStackPointer := by
  intro ra s hsp
  have hexec := exec_of_stackFault_eq_none (i := .push ra) rfl (if_neg hsp)
  have hrest := pc_and_keepsRest_wr_wr_advance (advances_by_one .push (by decide)) s
  refine ⟨_, hexec, State.toNat_pushAddress hsp, ?_, fun hslot => ?_, fun x hx hslot => ?_, hrest _ _ _ _⟩
  · rw [State.rd_advance, rd_handled_push, if_pos rfl]
  · rw [State.sp_eq, State.rd_advance, rd_handled_push, if_neg hslot.symm, if_pos rfl]
  · rw [State.rd_advance, rd_handled_push, if_neg hslot, if_neg hx]

/-- Settles O41: R7 is the last of the two cells written, with `ra` written before SP is read again. -/
theorem popLoadsFromTheStackPointer : Obligations.PopLoadsFromTheStackPointer := by
  intro ra s hsp
  have hexec (hv : ¬(ra = Config.spReg ∧ Config.spTop ≤ s.rd s.sp)) :=
    exec_of_stackFault_eq_none (i := .pop ra) rfl ((if_neg (not_spTop_le_iff.2 hsp)).trans (if_neg hv))
  have hrest := pc_and_keepsRest_wr_wr_advance (advances_by_one .pop (by decide)) s
  refine ⟨fun hra => ?_, fun hra htop => ?_⟩
  · refine ⟨_, hexec fun ⟨h, _⟩ => hra h, ?_, ?_, fun x hx hx7 => ?_, hrest _ _ _ _⟩
    · rw [State.rd_advance, rd_handled_pop, if_neg hra, if_pos rfl]
    · rw [State.sp_eq, State.rd_advance, rd_handled_pop, if_pos rfl, if_neg hra]
      bv_omega
    · rw [State.rd_advance, rd_handled_pop, if_neg hx7, if_neg hx]
  · subst hra
    refine ⟨_, hexec fun ⟨_, hv⟩ => not_spTop_le_iff.2 htop hv, ?_, fun x hx => ?_, hrest _ _ _ _⟩
    · rw [State.sp_eq, State.rd_advance, rd_handled_pop, if_pos rfl, if_pos rfl]
      bv_omega
    · rw [State.rd_advance, rd_handled_pop, if_neg hx, if_neg hx]

/-- Settles O43: the push leaves SP at its slot, since the slot is not R7, and the pop reads that slot. -/
theorem pushThenPopIsBalanced : Obligations.PushThenPopIsBalanced := by
  intro r r' s hr hr' hlo hhi hne8
  have hne0 : s.sp ≠ 0 := by bv_omega
  obtain ⟨t, hpush, hslot, hvalue, hsp, -⟩ := pushStoresBelowTheStackPointer r s hne0
  have hslot7 : s.pushAddress ≠ 7 := by bv_omega
  have htsp : t.sp = s.pushAddress := hsp hslot7
  obtain ⟨u, hpop, hloaded, husp, -⟩ := (popLoadsFromTheStackPointer r' t (by rw [htsp]; omega)).1 hr'
  refine ⟨t, u, hpush, hpop, ?_, ?_⟩
  · rw [hloaded, htsp, hvalue, if_neg hr]
  · refine BitVec.eq_of_toNat_eq ?_
    rw [husp, htsp, hslot]
    omega

end Sys2Proof.Machine

namespace Sys2Proof.Machine

/-! ## The instructions that set the pc (R71, R95, R96, R97, R100) -/

/-- With P = 1 the advance step does nothing (R71). -/
theorem State.advance_of_setsPc (s : State) {ir : Byte} (hP : setsPc ir = true) : s.advance ir = s := by
  simp only [State.advance, hP, if_true]

/-- The meaning of a row with P = 1 is its handler alone, where no stack fault raises (R71). -/
theorem exec_of_setsPc {i : Instr} {s : State} (m : Mnemonic) (hi : i.mnemonic = m) (hP : setsPc (opcodeMap m) = true)
    (hw : i.wellFormed = true) (h : stackFault i s = none) : exec i s = .next (handled i s) := by
  rw [exec_of_stackFault_eq_none hw h, hi, State.advance_of_setsPc _ hP]

/-- Settles O44: the handler writes the pc alone. -/
theorem jmpGoesToTheCellsContent : Obligations.JmpGoesToTheCellsContent := by
  intro ra s
  obtain ⟨hdecode, -⟩ := Laws.RoundTrip.jmp ra
  have hexec := exec_of_setsPc (i := .jmp ra) (s := s) .jmp rfl rfl rfl rfl
  exact ⟨hdecode [], _, hexec, s.toNat_target ra, fun _ => rfl, rfl, rfl, ⟨rfl, rfl⟩, rfl, rfl, rfl, rfl⟩

/-! ## CALL and RET (R96, R97, R98) -/

/-- The slot is written last, so that it holds the return address even where it is R7 (R96, D6). -/
theorem rd_handled_call (ra : Byte) (s : State) (x : Byte) :
    (handled (.call ra) s).rd x =
      if x = s.pushAddress then (s.pc + 2).setWidth 8 else if x = 7 then s.pushAddress else s.rd x := by
  simp only [handled, State.rd_setPc, State.rd_wr]
  rfl

/-- The target is read after the push (R96, D6). -/
theorem toNat_handled_call_pc (ra : Byte) (s : State) :
    (handled (.call ra) s).pc.toNat = ((handled (.call ra) s).rd ra).toNat :=
  State.toNat_target _ ra

/-- The return address of a CALL that was fetched fits a byte (R66, R96). -/
theorem State.toNat_returnAddress {s : State} (hp : s.canFetch) :
    ((s.pc + 2).setWidth 8 : Byte).toNat = s.pc.toNat + 2 := by
  simp only [State.canFetch] at hp
  bv_omega

/-- Settles O45: the slot and R7 are the cells written, and the pc is the last thing the handler sets. -/
theorem callPushesTheReturnAddress : Obligations.CallPushesTheReturnAddress := by
  intro ra s hsp hp
  have hexec := exec_of_setsPc (i := .call ra) .call rfl rfl rfl (if_neg hsp)
  refine ⟨_, hexec, State.toNat_pushAddress hsp, ?_, fun hslot => ?_, fun x hx hslot => ?_, toNat_handled_call_pc ra s,
    rfl, rfl, ⟨rfl, rfl⟩, rfl, rfl, rfl, rfl⟩
  · rw [rd_handled_call, if_pos rfl, State.toNat_returnAddress hp]
  · rw [State.sp_eq, rd_handled_call, if_neg hslot.symm, if_pos rfl]
  · rw [rd_handled_call, if_neg hslot, if_neg hx]

/-- R7 is the only cell that RET writes (R97). -/
theorem rd_handled_ret (s : State) (x : Byte) :
    (handled .ret s).rd x = if x = 7 then s.sp + 1 else s.rd x :=
  State.rd_wr ..

/-- The pc takes the byte on top of the stack (R97). -/
theorem toNat_handled_ret_pc (s : State) : (handled .ret s).pc.toNat = (s.rd s.sp).toNat :=
  s.toNat_target s.sp

/-- Settles O46: the handler writes the pc and R7. -/
theorem retPopsThePc : Obligations.RetPopsThePc := by
  intro s hsp
  have hexec := exec_of_setsPc (i := .ret) .ret rfl rfl rfl (if_neg (not_spTop_le_iff.2 hsp))
  refine ⟨_, hexec, toNat_handled_ret_pc s, ?_, fun x hx => ?_, rfl, rfl, ⟨rfl, rfl⟩, rfl, rfl, rfl, rfl⟩
  · rw [State.sp_eq, rd_handled_ret, if_pos rfl]
    bv_omega
  · rw [rd_handled_ret, if_neg hx]

/-- Settles O47: the call leaves SP at its slot, since the slot is not R7, and the return pops that slot. -/
theorem callThenRetReturns : Obligations.CallThenRetReturns := by
  intro ra s hp hlo hhi hne8
  have hne0 : s.sp ≠ 0 := by bv_omega
  obtain ⟨t, hcall, hslot, haddress, hsp, -⟩ := callPushesTheReturnAddress ra s hne0 hp
  have hslot7 : s.pushAddress ≠ 7 := by bv_omega
  have htsp : t.sp = s.pushAddress := hsp hslot7
  refine ⟨t, hcall, fun u husp htop => ?_⟩
  rw [husp] at htop
  obtain ⟨w, hret, hpc, hwsp, -⟩ := retPopsThePc u (by rw [husp, htsp]; omega)
  refine ⟨w, hret, ?_, BitVec.eq_of_toNat_eq ?_⟩
  · rw [hpc, husp, htop, htsp, haddress]
  · rw [hwsp, husp, htsp, hslot]
    omega

/-! ## The conditional jumps (R100) -/

/-- A meaning that is a conditional jump on the bit `taken` jumps under every condition that says the bit is set. -/
theorem jumpsWhen_of_exec_jumpIf {i : Instr} {ra : Byte} {s : State} {taken : Bool} {cond : Prop}
    (hexec : exec i s = .next (jumpIf taken ra s)) (hcond : taken = true ↔ cond) : JumpsWhen i ra s cond := by
  refine ⟨_, hexec, fun h => ?_, fun h => ?_, fun _ => rfl, rfl, rfl, ⟨rfl, rfl⟩, rfl, rfl, rfl, rfl⟩
  · rw [jumpIf, State.setPc_pc, if_pos (hcond.2 h), State.toNat_target]
  · rw [jumpIf, State.setPc_pc, if_neg (hcond.not.2 h)]

theorem JumpsWhen.of_iff {i : Instr} {ra : Byte} {s : State} {c d : Prop} (h : JumpsWhen i ra s c) (hcd : c ↔ d) :
    JumpsWhen i ra s d :=
  propext hcd ▸ h

/-- The six conditions on the bits of FL as they stand (R100). -/
theorem jumpsWhen_flags (ra : Byte) (s : State) :
    JumpsWhen (.jeq ra) ra s (s.flE = true) ∧ JumpsWhen (.jne ra) ra s (s.flE = false) ∧
      JumpsWhen (.jgt ra) ra s (s.flG = true) ∧ JumpsWhen (.jge ra) ra s (s.flG = true ∨ s.flE = true) ∧
      JumpsWhen (.jlt ra) ra s (s.flL = true) ∧ JumpsWhen (.jle ra) ra s (s.flL = true ∨ s.flE = true) := by
  refine ⟨?_, ?_, ?_, ?_, ?_, ?_⟩
  · exact jumpsWhen_of_exec_jumpIf (exec_of_setsPc .jeq rfl rfl rfl rfl) .rfl
  · exact jumpsWhen_of_exec_jumpIf (exec_of_setsPc .jne rfl rfl rfl rfl) (iff_of_eq (Bool.not_eq_true' _))
  · exact jumpsWhen_of_exec_jumpIf (exec_of_setsPc .jgt rfl rfl rfl rfl) .rfl
  · exact jumpsWhen_of_exec_jumpIf (exec_of_setsPc .jge rfl rfl rfl rfl) Bool.or_eq_true_iff
  · exact jumpsWhen_of_exec_jumpIf (exec_of_setsPc .jlt rfl rfl rfl rfl) .rfl
  · exact jumpsWhen_of_exec_jumpIf (exec_of_setsPc .jle rfl rfl rfl rfl) Bool.or_eq_true_iff

/-- Each bit of a comparison is set in its own case of the unsigned order (R131). -/
theorem compareFlags_bits (a b : Byte) :
    ((compareFlags a b).getLsbD 0 = true ↔ a.toNat = b.toNat) ∧
      ((compareFlags a b).getLsbD 1 = true ↔ a.toNat > b.toNat) ∧
      ((compareFlags a b).getLsbD 2 = true ↔ a.toNat < b.toNat) := by
  obtain h | h | h := Nat.lt_trichotomy a.toNat b.toNat
  · simp [compareFlags, h, h.ne, h.not_gt]
  · simp [compareFlags, h]
  · simp [compareFlags, h, h.ne', h.not_gt]

theorem exec_cmp (a b : Byte) (s : State) :
    exec (.cmp a b) s = .next ((s.setFl (compareFlags (s.rd a) (s.rd b))).advance (opcodeMap .cmp)) := rfl

/-- Settles O48: each condition on the bits, with the bits as a comparison leaves them and as clear flags have them. -/
theorem conditionalJumpsTestTheFlags : Obligations.ConditionalJumpsTestTheFlags := by
  refine fun ra s => ⟨jumpsWhen_flags ra s, fun a b => ⟨_, exec_cmp a b s, ?_⟩, fun hfl => ?_⟩
  · obtain ⟨hE, hG, hL⟩ := compareFlags_bits (s.rd a) (s.rd b)
    obtain ⟨hjeq, hjne, hjgt, hjge, hjlt, hjle⟩ := jumpsWhen_flags ra
      ((s.setFl (compareFlags (s.rd a) (s.rd b))).advance (opcodeMap .cmp))
    exact ⟨hjeq.of_iff hE, hjne.of_iff (Bool.eq_false_iff.trans hE.not), hjgt.of_iff hG,
      hjge.of_iff ((or_congr hG hE).trans (le_iff_lt_or_eq.trans (or_congr_right eq_comm)).symm), hjlt.of_iff hL,
      hjle.of_iff ((or_congr hL hE).trans le_iff_lt_or_eq.symm)⟩
  · have hE : s.flE = false := by rw [State.flE, hfl]; rfl
    have hG : s.flG = false := by rw [State.flG, hfl]; rfl
    have hL : s.flL = false := by rw [State.flL, hfl]; rfl
    obtain ⟨hjeq, hjne, hjgt, hjge, hjlt, hjle⟩ := jumpsWhen_flags ra s
    simp only [hE, hG, hL, Bool.false_eq_true, or_self] at hjeq hjne hjgt hjge hjlt hjle
    exact ⟨hjne, hjeq, hjgt, hjge, hjlt, hjle⟩

end Sys2Proof.Machine

namespace Sys2Proof.Machine

/-! ## PRN and PRA (R110, R111) -/

theorem exec_pra (ra : Byte) (s : State) :
    exec (.pra ra) s = .next ((s.emitOut (.pra (s.rd ra))).advance (opcodeMap .pra)) := rfl

/-- An instruction that completes in `s`, appends `e` to the output stream, moves the pc by 2, and changes nothing else. -/
def EmitsAndAdvances (i : Instr) (s : State) (e : OutEvent) : Prop :=
  ∃ t, exec i s = .next t ∧ t.out = s.out ++ [e] ∧ t.diag = s.diag ∧ t.pc = s.pc + 2 ∧ KeepsMemory s t ∧ t.fl = s.fl ∧
    t.run = s.run ∧ KeepsLatches s t

/-- A meaning that is one output event, then the advance step of a row with one operand, moves the pc by 2 and keeps the
rest (R71, R112). -/
theorem emitsAndAdvances_of_exec_emitOut {i : Instr} {s : State} {e : OutEvent} {m : Mnemonic}
    (hm : setsPc (opcodeMap m) = false ∧ operandCount (opcodeMap m) = 1)
    (hexec : exec i s = .next ((s.emitOut e).advance (opcodeMap m))) : EmitsAndAdvances i s e := by
  obtain ⟨hP, hN⟩ := hm
  have hpc : ((s.emitOut e).advance (opcodeMap m)).pc = s.pc + 2 := by
    rw [State.advance_pc_of_not_setsPc _ hP, hN, State.emitOut_pc]
    rfl
  exact ⟨_, hexec, rfl, rfl, hpc, fun _ => rfl, rfl, rfl, rfl, rfl, rfl, rfl⟩

/-- Settles O49: the event is the whole of PRN. -/
theorem prnEmitsTheCellsValue : Obligations.PrnEmitsTheCellsValue := fun ra s =>
  ⟨(Laws.RoundTrip.prn ra).1 [], emitsAndAdvances_of_exec_emitOut (advances_by_one .prn (by decide)) (exec_prn ra s)⟩

/-- Settles O50: the event is the whole of PRA. -/
theorem praEmitsTheCellsValue : Obligations.PraEmitsTheCellsValue := fun ra s =>
  ⟨(Laws.RoundTrip.pra ra).1 [], emitsAndAdvances_of_exec_emitOut (advances_by_one .pra (by decide)) (exec_pra ra s)⟩

/-! ## The text of an output event (R112) -/

/-- A number below 128 is the code point of its character. -/
theorem toNat_charOfNat {n : Nat} (h : n < 128) : (Char.ofNat n).toNat = n := by
  rw [Char.toNat_ofNat, if_pos (.inl (by omega))]

theorem toNat_digitChar {d : Nat} (h : d < 10) : (digitChar d).toNat = 48 + d :=
  toNat_charOfNat (by omega)

/-- `ds` are the digits of `n` in decimal, the most significant first and no zero leading a longer number (R112). -/
structure IsDecimal (ds : List Nat) (n : Nat) : Prop where
  lt_ten : ∀ d ∈ ds, d < 10
  value : ds.foldl (fun m d => m * 10 + d) 0 = n
  ne_nil : ds ≠ []
  head_ne_zero : 1 < ds.length → ds.head? ≠ some 0

/-- The text of a byte in decimal is the characters of its one, two or three digits. -/
theorem exists_isDecimal (v : Byte) : ∃ ds, IsDecimal ds v.toNat ∧ decimal v = ds.map digitChar := by
  have hv := v.isLt
  by_cases h10 : v.toNat < 10
  · exact ⟨[v.toNat], ⟨by simpa using h10, by simp, by simp, by simp⟩, if_pos h10⟩
  by_cases h100 : v.toNat < 100
  · exact ⟨[v.toNat / 10, v.toNat % 10], ⟨by simp; omega, by simp; omega, by simp, by simp; omega⟩,
      (if_neg h10).trans (if_pos h100)⟩
  · exact ⟨[v.toNat / 100, v.toNat / 10 % 10, v.toNat % 10], ⟨by simp; omega, by simp; omega, by simp, by simp; omega⟩,
      (if_neg h10).trans (if_neg h100)⟩

section
variable {ds : List Nat} {n : Nat} (h : IsDecimal ds n)
include h

/-- Reading the digit characters back gives the number. -/
theorem IsDecimal.foldl_map_digitChar :
    (ds.map digitChar).foldl (fun m c => m * 10 + (c.toNat - 48)) 0 = n := by
  rw [List.foldl_map, ← h.value]
  refine List.foldl_ext _ _ _ fun m d hd => ?_
  rw [toNat_digitChar (h.lt_ten d hd), Nat.add_sub_cancel_left]

/-- Every character is one of '0' to '9'. -/
theorem IsDecimal.toNat_bounds_of_mem_map {c : Char} (hc : c ∈ ds.map digitChar) : 48 ≤ c.toNat ∧ c.toNat ≤ 57 := by
  obtain ⟨d, hd, rfl⟩ := List.mem_map.1 hc
  have hlt := h.lt_ten d hd
  rw [toNat_digitChar hlt]
  omega

/-- The character '0' leads only where the digit 0 does. -/
theorem IsDecimal.head?_map_ne_zero (hlen : 1 < (ds.map digitChar).length) : (ds.map digitChar).head? ≠ some '0' := by
  rw [List.head?_map, Ne, Option.map_eq_some_iff]
  rintro ⟨d, hd, hchar⟩
  have hnat : 48 + d = 48 := (toNat_digitChar (h.lt_ten d (List.mem_of_head? hd))).symm.trans (congrArg Char.toNat hchar)
  obtain rfl : d = 0 := by omega
  exact h.head_ne_zero (by simpa using hlen) hd

end

/-- Settles O51: the decimal text by its digits, and a character below 128 by its code point. -/
theorem renderingOfOutputEvents : Obligations.RenderingOfOutputEvents := by
  intro v
  obtain ⟨ds, hds, htext⟩ := exists_isDecimal v
  refine ⟨rfl, ?_⟩
  rw [htext]
  exact ⟨hds.foldl_map_digitChar, fun _ => hds.toNat_bounds_of_mem_map, ⟨mt List.map_eq_nil_iff.1 hds.ne_nil,
    hds.head?_map_ne_zero⟩, fun hv => ⟨_, toNat_charOfNat hv, congrArg (· :: Config.lineSeparator) (if_pos hv)⟩⟩

end Sys2Proof.Machine

namespace Sys2Proof.Machine

/-! ## The values of the ALU's functions (R116 to R133) -/

theorem toNat_aluAdd (a b : Byte) : (aluAdd a b).toNat = (a.toNat + b.toNat) % 256 := BitVec.toNat_ofNat ..

theorem toNat_aluMul (a b : Byte) : (aluMul a b).toNat = a.toNat * b.toNat % 256 := BitVec.toNat_ofNat ..

theorem toNat_aluInc (a : Byte) : (aluInc a).toNat = (a.toNat + 1) % 256 := BitVec.toNat_ofNat ..

theorem toNat_aluShl (x : Byte) : (aluShl x).toNat = x.toNat * 2 ^ x.toNat % 256 := BitVec.toNat_ofNat ..

/-- The integer difference modulo 256, with 256 added to keep it a natural number (R117, D1). -/
theorem toNat_aluSub (a b : Byte) : (aluSub a b).toNat = (a.toNat + 256 - b.toNat) % 256 := by
  have := b.isLt
  simp only [aluSub, BitVec.toNat_ofInt]
  omega

theorem toNat_aluDec (a : Byte) : (aluDec a).toNat = (a.toNat + 255) % 256 := by
  simp only [aluDec, BitVec.toNat_ofInt]
  omega

/-- A quotient of bytes is no greater than the dividend, so that nothing wraps (R119). -/
theorem toNat_aluDiv (a b : Byte) : (aluDiv a b).toNat = a.toNat / b.toNat := by
  have hle := Nat.div_le_self a.toNat b.toNat
  have := a.isLt
  rw [aluDiv, BitVec.toNat_ofNat, Nat.mod_eq_of_lt (by omega)]

/-- A remainder of bytes is no greater than the dividend, so that nothing wraps (R120). -/
theorem toNat_aluMod (a b : Byte) : (aluMod a b).toNat = a.toNat % b.toNat := by
  have hle := Nat.mod_le a.toNat b.toNat
  have := a.isLt
  rw [aluMod, BitVec.toNat_ofNat, Nat.mod_eq_of_lt (by omega)]

theorem toNat_aluNot (a : Byte) : (aluNot a).toNat = 255 - a.toNat := by
  rw [aluNot, BitVec.toNat_ofNat, Nat.mod_eq_of_lt (by omega)]

/-- The complement of 255 is the bitwise one (R127). -/
theorem aluNot_eq_not (a : Byte) : aluNot a = ~~~a := by
  refine BitVec.eq_of_toNat_eq ?_
  rw [toNat_aluNot, BitVec.toNat_not]

theorem getLsbD_aluNot (a : Byte) {i : Nat} (hi : i < 8) : (aluNot a).getLsbD i = !a.getLsbD i := by
  rw [aluNot_eq_not, BitVec.getLsbD_not, decide_eq_true hi, Bool.true_and]

/-- A shift by 8 or more moves every bit out: 2^8 divides the result (R128, D1). -/
theorem aluShl_eq_zero {x : Byte} (hx : 8 ≤ x.toNat) : aluShl x = 0 := by
  have hdvd : 256 ∣ x.toNat * 2 ^ x.toNat := Dvd.dvd.mul_left (pow_dvd_pow 2 hx) x.toNat
  exact BitVec.eq_of_toNat_eq ((toNat_aluShl x).trans (Nat.mod_eq_zero_of_dvd hdvd))

/-- A number is below two to its own power, so that no bit stays (R129, D23). -/
theorem div_two_pow_self (n : Nat) : n / 2 ^ n = 0 := Nat.div_eq_of_lt n.lt_two_pow_self

theorem aluShr_eq_zero (x : Byte) : aluShr x = 0 := by
  rw [aluShr, div_two_pow_self]
  rfl

/-! ## An ALU instruction that writes its result (R115) -/

/-- A meaning that is one write, then the advance step of a row with `n` operands, moves the pc by `n + 1` and keeps the
rest (R71). -/
theorem writesAndAdvances_of_exec_wr_advance {i : Instr} {s : State} {a v : Byte} {m : Mnemonic} {n : Nat}
    (hm : setsPc (opcodeMap m) = false ∧ operandCount (opcodeMap m) = n)
    (hexec : exec i s = .next ((s.wr a v).advance (opcodeMap m))) : WritesAndAdvances i s a v (n + 1) := by
  obtain ⟨hP, hN⟩ := hm
  have hpc : ((s.wr a v).advance (opcodeMap m)).pc = s.pc + BitVec.ofNat 9 (n + 1) := by
    rw [State.advance_pc_of_not_setsPc _ hP, hN, State.wr_pc]
  exact ⟨_, hexec, writesOnly_wr_advance s a v _, hpc, rfl, rfl, ⟨rfl, rfl⟩, rfl, rfl, rfl, rfl⟩

section
variable (ra rb : Byte) (s : State)

theorem add_writesAndAdvances : WritesAndAdvances (.add ra rb) s ra (aluAdd (s.rd ra) (s.rd rb)) 3 :=
  writesAndAdvances_of_exec_wr_advance (advances_by_two .add (by decide)) rfl

theorem sub_writesAndAdvances : WritesAndAdvances (.sub ra rb) s ra (aluSub (s.rd ra) (s.rd rb)) 3 :=
  writesAndAdvances_of_exec_wr_advance (advances_by_two .sub (by decide)) rfl

theorem mul_writesAndAdvances : WritesAndAdvances (.mul ra rb) s ra (aluMul (s.rd ra) (s.rd rb)) 3 :=
  writesAndAdvances_of_exec_wr_advance (advances_by_two .mul (by decide)) rfl

theorem and_writesAndAdvances : WritesAndAdvances (.and ra rb) s ra (aluAnd (s.rd ra) (s.rd rb)) 3 :=
  writesAndAdvances_of_exec_wr_advance (advances_by_two .and (by decide)) rfl

theorem or_writesAndAdvances : WritesAndAdvances (.or ra rb) s ra (aluOr (s.rd ra) (s.rd rb)) 3 :=
  writesAndAdvances_of_exec_wr_advance (advances_by_two .or (by decide)) rfl

theorem xor_writesAndAdvances : WritesAndAdvances (.xor ra rb) s ra (aluXor (s.rd ra) (s.rd rb)) 3 :=
  writesAndAdvances_of_exec_wr_advance (advances_by_two .xor (by decide)) rfl

theorem shl_writesAndAdvances : WritesAndAdvances (.shl ra rb) s ra (aluShl (s.rd ra)) 3 :=
  writesAndAdvances_of_exec_wr_advance (advances_by_two .shl (by decide)) rfl

theorem shr_writesAndAdvances : WritesAndAdvances (.shr ra rb) s ra (aluShr (s.rd ra)) 3 :=
  writesAndAdvances_of_exec_wr_advance (advances_by_two .shr (by decide)) rfl

theorem not_writesAndAdvances : WritesAndAdvances (.not ra) s ra (aluNot (s.rd ra)) 2 :=
  writesAndAdvances_of_exec_wr_advance (advances_by_one .not (by decide)) rfl

theorem inc_writesAndAdvances : WritesAndAdvances (.inc ra) s ra (aluInc (s.rd ra)) 2 :=
  writesAndAdvances_of_exec_wr_advance (advances_by_one .inc (by decide)) rfl

theorem dec_writesAndAdvances : WritesAndAdvances (.dec ra) s ra (aluDec (s.rd ra)) 2 :=
  writesAndAdvances_of_exec_wr_advance (advances_by_one .dec (by decide)) rfl

end

/-- Settles O52, by the value of each result. -/
theorem addSubMulWrapModulo256 : Obligations.AddSubMulWrapModulo256 := fun ra rb s =>
  ⟨⟨_, add_writesAndAdvances ra rb s, toNat_aluAdd _ _⟩, ⟨_, sub_writesAndAdvances ra rb s, toNat_aluSub _ _⟩,
    ⟨_, mul_writesAndAdvances ra rb s, toNat_aluMul _ _⟩⟩

/-- Settles O53, by the value of each result. -/
theorem incDecWrapModulo256 : Obligations.IncDecWrapModulo256 := fun ra s =>
  ⟨⟨_, inc_writesAndAdvances ra s, toNat_aluInc _⟩, ⟨_, dec_writesAndAdvances ra s, toNat_aluDec _⟩⟩

/-- Settles O56, by the bits of each result. -/
theorem logicWorksBitByBit : Obligations.LogicWorksBitByBit := fun ra rb s =>
  ⟨⟨_, and_writesAndAdvances ra rb s, fun _ _ => BitVec.getLsbD_and⟩,
    ⟨_, or_writesAndAdvances ra rb s, fun _ _ => BitVec.getLsbD_or⟩,
    ⟨_, xor_writesAndAdvances ra rb s, fun _ _ => BitVec.getLsbD_xor⟩,
    ⟨_, not_writesAndAdvances ra s, toNat_aluNot _, fun _ => getLsbD_aluNot _⟩⟩

/-- Settles O57: SHL loses every bit from a shift by 8 on, SHR by every shift. -/
theorem shiftsUseTheirOwnValue : Obligations.ShiftsUseTheirOwnValue := fun ra rb s =>
  ⟨⟨_, shl_writesAndAdvances ra rb s, toNat_aluShl _, aluShl_eq_zero⟩,
    aluShr_eq_zero (s.rd ra) ▸ shr_writesAndAdvances ra rb s, div_two_pow_self _⟩

/-! ## DIV and MOD (R119, R120, R121) -/

/-- An instruction that completes in `s`, appends `e` to the diagnostic stream, halts, moves the pc by 3, and changes
nothing else. -/
def ReportsAndHalts (i : Instr) (s : State) (e : DiagEvent) : Prop :=
  ∃ t, exec i s = .next t ∧ t.diag = s.diag ++ [e] ∧ t.run = .halted ∧ KeepsMemory s t ∧ t.fl = s.fl ∧ t.out = s.out ∧
    t.pc = s.pc + 3 ∧ KeepsLatches s t

theorem exec_div (ra rb : Byte) (s : State) :
    exec (.div ra rb) s = .next ((aluDivide aluDiv .divideByZero ra rb s).advance (opcodeMap .div)) := rfl

theorem exec_mod (ra rb : Byte) (s : State) :
    exec (.mod ra rb) s = .next ((aluDivide aluMod .moduloByZero ra rb s).advance (opcodeMap .mod)) := rfl

section
variable {i : Instr} {g : Byte → Byte → Byte} {report : PcWord → DiagEvent} {ra rb : Byte} {s : State} {m : Mnemonic}
  (hm : setsPc (opcodeMap m) = false ∧ operandCount (opcodeMap m) = 2)
  (hexec : exec i s = .next ((aluDivide g report ra rb s).advance (opcodeMap m)))
include hm hexec

/-- A divisor that is not 0 leaves an ordinary write of the result (R119, R120). -/
theorem writesAndAdvances_of_exec_aluDivide (h : s.rd rb ≠ 0) :
    WritesAndAdvances i s ra (g (s.rd ra) (s.rd rb)) 3 := by
  rw [aluDivide, if_neg h] at hexec
  exact writesAndAdvances_of_exec_wr_advance hm hexec

/-- A divisor of 0 leaves the report and the halt (R121, D16). -/
theorem reportsAndHalts_of_exec_aluDivide (h : s.rd rb = 0) : ReportsAndHalts i s (report s.pc) := by
  obtain ⟨hP, hN⟩ := hm
  rw [aluDivide, if_pos h] at hexec
  refine ⟨_, hexec, rfl, rfl, fun _ => rfl, rfl, rfl, ?_, rfl, rfl, rfl, rfl⟩
  rw [State.advance_pc_of_not_setsPc _ hP, hN, State.halt_pc, State.emitDiag_pc]
  rfl

end

/-- Settles O54: quotient and remainder are those of the natural numbers. -/
theorem divModGiveQuotientAndRemainder : Obligations.DivModGiveQuotientAndRemainder := by
  intro ra rb s h
  refine ⟨_, _, writesAndAdvances_of_exec_aluDivide (advances_by_two .div (by decide)) (exec_div ra rb s) h,
    writesAndAdvances_of_exec_aluDivide (advances_by_two .mod (by decide)) (exec_mod ra rb s) h, ?_, ?_⟩
  · rw [toNat_aluDiv, toNat_aluMod, Nat.div_add_mod]
  · have hpos : 0 < (s.rd rb).toNat := by bv_omega
    rw [toNat_aluMod]
    exact Nat.mod_lt _ hpos

/-- Settles O55: a divisor of 0 leaves the report, the halt and the advance step. -/
theorem divModByZeroReportAndHalt : Obligations.DivModByZeroReportAndHalt := fun ra rb s h =>
  ⟨reportsAndHalts_of_exec_aluDivide (advances_by_two .div (by decide)) (exec_div ra rb s) h,
    reportsAndHalts_of_exec_aluDivide (advances_by_two .mod (by decide)) (exec_mod ra rb s) h⟩

/-! ## CMP (R131) -/

theorem compareFlags_of_eq {a b : Byte} (h : a.toNat = b.toNat) : compareFlags a b = 0b001 := by
  simp [compareFlags, h]

theorem compareFlags_of_gt {a b : Byte} (h : a.toNat > b.toNat) : compareFlags a b = 0b010 := by
  simp [compareFlags, h, h.ne', h.not_gt]

theorem compareFlags_of_lt {a b : Byte} (h : a.toNat < b.toNat) : compareFlags a b = 0b100 := by
  simp [compareFlags, h, h.ne, h.not_gt]

/-- The upper five bits of FL as a byte are 0 (R20). -/
theorem State.toNat_flByte (s : State) : s.flByte.toNat = s.fl.toNat := BitVec.toNat_setWidth_of_le (by decide)

/-- CMP's handler leaves the pc to the advance step of a row with two operands (R71). -/
theorem State.setFl_advance_cmp_pc (s : State) (f : BitVec 3) :
    ((s.setFl f).advance (opcodeMap .cmp)).pc = s.pc + 3 := by
  obtain ⟨hP, hN⟩ := advances_by_two .cmp (by decide)
  rw [State.advance_pc_of_not_setsPc _ hP, hN, State.setFl_pc]
  rfl

/-- Settles O58: the flags in each case of the order are the whole of CMP. -/
theorem cmpSetsExactlyOneFlag : Obligations.CmpSetsExactlyOneFlag := fun ra rb s =>
  ⟨_, exec_cmp ra rb s, compareFlags_of_eq, compareFlags_of_gt, compareFlags_of_lt, State.toNat_flByte _, fun _ => rfl,
    s.setFl_advance_cmp_pc _, rfl, ⟨rfl, rfl⟩, rfl, rfl, rfl, rfl⟩

/-! ## The ALU as functions of two bytes (R115) -/

/-- One function of the bytes in `ra` and `rb` gives what the instruction writes to `ra` in every state, with no other
cell and no flag written. -/
def HasAluFunction (i : Byte → Byte → Instr) : Prop :=
  ∃ f : Byte → Byte → Byte, ∀ (ra rb : Byte) (s : State), ∃ t, exec (i ra rb) s = .next t ∧
    WritesOnly s t ra (f (s.rd ra) (s.rd rb)) ∧ t.fl = s.fl

theorem hasAluFunction_of_writesAndAdvances {i : Byte → Byte → Instr} {n : Nat} (f : Byte → Byte → Byte)
    (h : ∀ ra rb s, WritesAndAdvances (i ra rb) s ra (f (s.rd ra) (s.rd rb)) n) : HasAluFunction i := by
  refine ⟨f, fun ra rb s => ?_⟩
  obtain ⟨t, hexec, hwrites, -, hfl, -⟩ := h ra rb s
  exact ⟨t, hexec, hwrites, hfl⟩

/-- The function of a division: the dividend stays where the divisor is 0 (R121, D16). -/
def keepByZero (g : Byte → Byte → Byte) (a b : Byte) : Byte := if b = 0 then a else g a b

/-- Where no cell changes, a cell that keeps its own byte is the only one written. -/
theorem KeepsMemory.writesOnly {s t : State} (h : KeepsMemory s t) (a : Byte) : WritesOnly s t a (s.rd a) :=
  ⟨h a, fun x _ => h x⟩

theorem hasAluFunction_of_aluDivide {i : Byte → Byte → Instr} {g : Byte → Byte → Byte} {report : PcWord → DiagEvent}
    {m : Mnemonic} (hm : setsPc (opcodeMap m) = false ∧ operandCount (opcodeMap m) = 2)
    (hexec : ∀ ra rb s, exec (i ra rb) s = .next ((aluDivide g report ra rb s).advance (opcodeMap m))) :
    HasAluFunction i := by
  refine ⟨keepByZero g, fun ra rb s => ?_⟩
  by_cases h : s.rd rb = 0
  · obtain ⟨t, ht, -, -, hmem, hfl, -⟩ := reportsAndHalts_of_exec_aluDivide hm (hexec ra rb s) h
    rw [keepByZero, if_pos h]
    exact ⟨t, ht, hmem.writesOnly ra, hfl⟩
  · obtain ⟨t, ht, hwrites, -, hfl, -⟩ := writesAndAdvances_of_exec_aluDivide hm (hexec ra rb s) h
    rw [keepByZero, if_neg h]
    exact ⟨t, ht, hwrites, hfl⟩

/-- Settles O59, by the function of each operation, DIV and MOD keeping the dividend by a zero divisor. -/
theorem aluIsAPureFunctionOfItsOperands : Obligations.AluIsAPureFunctionOfItsOperands := by
  refine ⟨?_, compareFlags, fun ra rb s => ⟨_, exec_cmp ra rb s, fun _ => rfl, rfl⟩⟩
  simp only [List.forall_mem_cons]
  exact ⟨hasAluFunction_of_writesAndAdvances aluAdd add_writesAndAdvances,
    hasAluFunction_of_writesAndAdvances aluSub sub_writesAndAdvances,
    hasAluFunction_of_writesAndAdvances aluMul mul_writesAndAdvances,
    hasAluFunction_of_aluDivide (advances_by_two .div (by decide)) exec_div,
    hasAluFunction_of_aluDivide (advances_by_two .mod (by decide)) exec_mod,
    hasAluFunction_of_writesAndAdvances aluAnd and_writesAndAdvances,
    hasAluFunction_of_writesAndAdvances aluOr or_writesAndAdvances,
    hasAluFunction_of_writesAndAdvances aluXor xor_writesAndAdvances,
    hasAluFunction_of_writesAndAdvances (fun a _ => aluShl a) shl_writesAndAdvances,
    hasAluFunction_of_writesAndAdvances (fun a _ => aluShr a) shr_writesAndAdvances,
    hasAluFunction_of_writesAndAdvances (fun a _ => aluNot a) fun ra _ => not_writesAndAdvances ra,
    hasAluFunction_of_writesAndAdvances (fun a _ => aluInc a) fun ra _ => inc_writesAndAdvances ra,
    hasAluFunction_of_writesAndAdvances (fun a _ => aluDec a) fun ra _ => dec_writesAndAdvances ra, nofun⟩

end Sys2Proof.Machine

namespace Sys2Proof.Machine

/-! ## The events of a cycle (R141, R145) -/

/-- A cycle ends FAULTED only by the raise of that fault, which is then the whole of it (R141). -/
theorem CycleRuns.eq_raise_of_run_eq_faulted {s : State} {f : State → State} {c : Fault} (hf : CycleRuns s f)
    (hr : s.run = .running) (h : (f s).run = .faulted c) : f s = s.raise c := by
  cases hf with
  | raise d => exact RunState.faulted.inj h ▸ rfl
  | report => cases hr.symm.trans h
  | handle m =>
    obtain hrun | hrun := handled_run (m.withOperands s.operandAt s.operandBAt) s.latched
    · cases (hrun.trans hr).symm.trans h
    · cases hrun.symm.trans h

/-- Settles O18: the cycle was a raise, and the state it leaves is FAULTED. -/
theorem faultingCycleChangesOnlyRun : Obligations.FaultingCycleChangesOnlyRun := by
  intro s t c hr hstep h
  obtain ⟨f, hf, rfl, -⟩ := cycleRuns_of_step hr hstep
  exact ⟨hf.eq_raise_of_run_eq_faulted hr h ▸ s.faultsWith_raise c, step_faulted h⟩

/-- A division that adds to DIAG adds its report, and halts (R121). -/
theorem aluDivide_halts_of_diag_ne {g : Byte → Byte → Byte} {report : PcWord → DiagEvent} {ra rb : Byte} {s : State}
    (h : (aluDivide g report ra rb s).diag ≠ s.diag) :
    (aluDivide g report ra rb s).run = .halted ∧ (aluDivide g report ra rb s).diag = s.diag ++ [report s.pc] := by
  by_cases hz : s.rd rb = 0
  · rw [aluDivide, if_pos hz]
    exact ⟨rfl, rfl⟩
  · rw [aluDivide, if_neg hz] at h
    exact absurd rfl h

/-- The handlers that can report are those of DIV and MOD, which then halt the machine (R121, R145). -/
theorem handled_halts_of_diag_ne {m : Mnemonic} {a b : Byte} {s : State}
    (h : (handled (m.withOperands a b) s).diag ≠ s.diag) :
    (handled (m.withOperands a b) s).run = .halted ∧
      ((m = .div ∧ (handled (m.withOperands a b) s).diag = s.diag ++ [.divideByZero s.pc]) ∨
        (m = .mod ∧ (handled (m.withOperands a b) s).diag = s.diag ++ [.moduloByZero s.pc])) := by
  cases m
  case div => exact (aluDivide_halts_of_diag_ne h).imp_right fun hd => .inl ⟨rfl, hd⟩
  case mod => exact (aluDivide_halts_of_diag_ne h).imp_right fun hd => .inr ⟨rfl, hd⟩
  all_goals exact absurd rfl h

/-- A cycle that dispatched one of the 32 reports nothing but the zero divisor of DIV or MOD (R145). -/
theorem CycleRuns.halts_of_diag_ne {s : State} {f : State → State} {m : Mnemonic} (hf : CycleRuns s f)
    (hl : lookup opcodeMap s.opcodeAt = some m) (hres : m.reserved = false) (h : (f s).diag ≠ s.diag) :
    (f s).run = .halted ∧ ((m = .div ∧ (f s).diag = s.diag ++ [.divideByZero s.pc]) ∨
      (m = .mod ∧ (f s).diag = s.diag ++ [.moduloByZero s.pc])) := by
  cases hf with
  | raise => exact absurd rfl h
  | report _ hi => exact absurd (opcode_of_lookup hl) (hi m hres)
  | handle n _ hn =>
    obtain rfl := opcodeMap_injective (hn.trans (opcode_of_lookup hl).symm)
    exact handled_halts_of_diag_ne (s := s.latched) h

/-- A cycle that dispatched an instruction faults only by the stack bounds of a stack instruction (R92, R145). -/
theorem State.CanRaise.stackBounds_of_lookup {s : State} {c : Fault} {m : Mnemonic} (hc : s.CanRaise c)
    (hp : s.canFetch) (hl : lookup opcodeMap s.opcodeAt = some m) :
    m ∈ [Mnemonic.push, .pop, .call, .ret] ∧ ∃ b, c = .stackBounds b := by
  cases c with
  | outOfBoundsAddress a => exact absurd hp (Nat.not_le.2 hc.1)
  | stackBounds b =>
    obtain ⟨⟨n, hn, hln⟩, -⟩ := hc
    exact ⟨Option.some.inj (hln.symm.trans hl) ▸ hn, b, rfl⟩
  | loadOverflow => exact hc.elim

/-- Settles O17, in the order of the checks: the raise of the fetch, the report of the look-up, and of a dispatched
instruction either a stack fault, which reports nothing, or the report of a zero divisor, which halts. -/
theorem atMostOneEventInCheckOrder : Obligations.AtMostOneEventInCheckOrder := by
  intro s t hr hstep
  refine ⟨fun hp => ?_, fun hp hi => ?_, fun hp m hl hres => ?_⟩
  · obtain ⟨u, hu, hrun, -, -, -, -, hdiag⟩ := exists_faultsWith_of_fetchFault hr hp
    obtain rfl := Host.Outcome.next.inj (hu.symm.trans hstep)
    exact ⟨⟨_, hrun⟩, hdiag⟩
  · obtain rfl := Host.Outcome.next.inj ((step_of_isInvalid hr hp hi).symm.trans hstep)
    exact ⟨hr, rfl⟩
  · obtain ⟨f, hf, rfl, -⟩ := cycleRuns_of_step hr hstep
    refine ⟨fun c h => ?_, hf.halts_of_diag_ne hl hres⟩
    obtain ⟨hstack, hbounds⟩ := (hf.canRaise_of_run_eq_faulted hr h).stackBounds_of_lookup hp hl
    exact ⟨hstack, hbounds, hf.eq_raise_of_run_eq_faulted hr h ▸ s.raise_diag c⟩

end Sys2Proof.Machine

namespace Sys2Proof.Machine

/-! ## The state when the first cycle starts (R156, R158) -/

/-- A load keeps the invariant: memory stays canonical for an image that fits and for an oversized one (R40, R41), whose
fault can arise then. -/
theorem State.Inv.load {s : State} (h : s.Inv) (img : List Byte) : (s.load img).Inv := by
  by_cases hlen : img.length ≤ 256
  · rw [State.load_fits hlen]
    have hbase : Config.loadBase + img.length ≤ Config.memSize := (Nat.zero_add _).trans_le hlen
    exact { h with wf := Memory.wf_copyIn h.wf img hbase }
  · have hover : Config.memSize < img.length := Nat.lt_of_not_le hlen
    rw [State.load_oversized hover]
    exact { h with wf := Memory.wf_ofCells fun a => Config.freeByte (s.freeCount + a), fault := hover }

/-- Settles O28. -/
theorem invariantHoldsAfterLoad : Obligations.InvariantHoldsAfterLoad := invariantHoldsAtReset.load

/-- Each cell when the first cycle starts: the image's byte, or the reset contents where the image is shorter (R158). -/
theorem State.rd_boot {img : List Byte} (h : img.length ≤ 256) (a : Byte) :
    (State.boot img).rd a = img[a.toNat]?.getD (if a = 7 then 0xF4 else 0) := by
  rw [State.boot, State.rd_load h, State.rd_reset, List.getD_eq_getElem?_getD]

/-- Settles O33: the load moves nothing but memory, and an image of at most 7 bytes does not reach the cell of SP. -/
theorem stateWhenTheFirstCycleStarts : Obligations.StateWhenTheFirstCycleStarts := by
  intro img h
  refine ⟨State.rd_boot h, fun h7 => ?_, ?_⟩
  · have hnone : img[(7 : Byte).toNat]? = none := List.getElem?_eq_none h7
    rw [State.sp_eq, State.rd_boot h, hnone, Option.getD_none, if_pos rfl]
  · rw [State.boot, State.load_fits h]
    exact ⟨rfl, rfl, rfl, rfl, rfl⟩

end Sys2Proof.Machine
